-- ==== Sys2Proof/Word.lean ====
section
/-! DEFINITION. The words the block exchanges with its host, by width.
The widths are fixed by the spec (`00_scope.md`, the sentence after R7; R6; R49; R60; R65), not parameters. -/

namespace Sys2Proof

/-- A command word `cmd[63:0]` (R49). -/
abbrev Cmd := BitVec 64

/-- A sample word `s[15:0]` (R60). -/
abbrev SampleWord := BitVec 16

/-- Response data, `FINDEX` and `FCOUNT` are 32 bits wide (R22, R23, R65). -/
abbrev Data := BitVec 32

/-- A `colorIndex` in [0,3] (R6, R14). -/
abbrev ColorIdx := Fin 4

/-- A `paletteIndex` in [0,7] (R6, R14). -/
abbrev PalIdx := Fin 8

/-- An `oamIndex` in [0,255] (R7, R15). -/
abbrev OamIdx := Fin 256

end Sys2Proof
end

