-- ==== Sys2Proof/Machine/Bits.lean ====
section
/-! DEFINITION. Bit-field helpers: the notation of `00_scope.md` R8 and R9 as functions on natural numbers. -/

namespace Sys2Proof.Bits

/-- `w[hi:lo]`, the field of bits `hi` down to `lo` of `w`, inclusive, read as an unsigned integer (R8). -/
def slice (w hi lo : Nat) : Nat := w / 2 ^ lo % 2 ^ (hi + 1 - lo)

/-- `sext` of a 16-bit field: the two's-complement reading (R8), used for OFS (R59). -/
def sext16 (v : Nat) : Int := if v < 2 ^ 15 then (v : Int) else (v : Int) - 2 ^ 16

/-- The 16-bit two's-complement pattern of an integer: the field that `sext16` reads back. -/
def twos16 (i : Int) : Nat := (i % 2 ^ 16).toNat

/-- `i mod 2^32`: the 32-bit two's-complement value of an index, as FINDEX records it (R22, R91). -/
def twos32 (i : Int) : Data := BitVec.ofInt 32 i

/-- `nextPow2(x)`, the least power of two that is at least `x`, for `x >= 1` (R9). -/
def nextPow2 (x : Nat) : Nat := if x ≤ 1 then 1 else 2 ^ (Nat.log2 (x - 1) + 1)

/-- "is a power of two", as R7 and R18 ask of the capacities. -/
def isPow2 (x : Nat) : Bool := x == 2 ^ Nat.log2 x

/-- One bit as a number. -/
def bit (b : Bool) : Nat := if b then 1 else 0

end Sys2Proof.Bits
end

