-- ==== Sys2Proof/Syntax.lean ====
section
/-! DEFINITION. Samples and commands as data: the PixelSample type (R14) and the thirteen commands of the
opcode map (R62), one constructor per row of `spec/opcode_table.json`. -/

namespace Sys2Proof

/-- The `priorityTag`, "exactly these three kinds; no other value is ever observable" (R14, R16). -/
inductive Tag where
  /-- *OrdinaryBackground*. -/
  | ordBg
  /-- *BackgroundPriority*: the tile asserted priority over sprites. -/
  | bgPrio
  /-- *Sprite(oamIndex)*; a lower rank wins (R15, `90_conflicts.md` C1). -/
  | sprite (oam : OamIdx)
deriving DecidableEq, Repr, Inhabited

/-- A PixelSample, one queued pixel unit (R14). -/
structure Sample where
  color : ColorIdx
  pal : PalIdx
  tag : Tag
deriving DecidableEq, Repr, Inhabited

/-- The commands of R62. Colors are given lane 0 first (R36, R58), `ofs` is the signed offset (R59), `idx` an
unsigned index, and `smp` a RAW sample word: whether it encodes a sample is checked when the command executes,
not when it is decoded (R64). -/
inductive Instr where
  /-- LEN, `Length()` (R77). -/
  | len
  /-- ROW, `EnqueueRow(colors, paletteIndex, isPriorityTile)` (R78). -/
  | row (colors : List ColorIdx) (pal : PalIdx) (prio : Bool)
  /-- OVL, `Overlay(colors, offset, paletteIndex, isPriorityTile, oamIndex)` (R81). -/
  | ovl (colors : List ColorIdx) (pal : PalIdx) (prio : Bool) (oam : OamIdx) (ofs : Int)
  /-- POP, `PopComposite()` (R84). -/
  | pop
  /-- DROP, `Drop()` (R85). -/
  | drop
  /-- CLR, the composer's `Clear()` (R86). -/
  | clr
  /-- CNT, `Count` (R69). -/
  | cnt
  /-- GET, `Get(i)` (R70). -/
  | get (idx : Nat)
  /-- SET, `Set(i, value)` (R71). -/
  | set (idx : Nat) (smp : SampleWord)
  /-- ENQ, `Enqueue(value)` (R72). -/
  | enq (smp : SampleWord)
  /-- ENQB, `EnqueueBatch(sequence)`: the count N and the three sample slots (R73). -/
  | enqb (n : Fin 4) (smp0 smp1 smp2 : SampleWord)
  /-- DEQ, `Dequeue()` (R74). -/
  | deq
  /-- RCLR, the ring buffer's `Clear()` (R75). -/
  | rclr
deriving DecidableEq, Repr

end Sys2Proof
end

