-- ==== Sys2Proof/WellFormed.lean ====
section
/-! DEFINITION. Which terms of `Instr` a command word can carry: the field ranges of R51 to R57. -/

namespace Sys2Proof.Instr

/-- A run of colors fills the eight lanes of LANES (R52, R53, R58). -/
def lanesFit (colors : List ColorIdx) : Bool := colors.length == 8

/-- IDX is a 16-bit unsigned field (R54, R55). -/
def idxFits (idx : Nat) : Bool := decide (idx < 2 ^ 16)

/-- OFS is a 16-bit two's-complement field (R53, R59). -/
def ofsFits (ofs : Int) : Bool := decide (-(2 ^ 15) ≤ ofs) && decide (ofs < 2 ^ 15)

/-- "Every slot SMPk with k >= N must be 0" (R57, R63 (c)). -/
def unusedSlotsClear (n : Fin 4) (smp0 smp1 smp2 : SampleWord) : Bool :=
  ([smp0, smp1, smp2].drop n.val).all (· == 0)

/-- The instruction has a command word. -/
def wellFormed : Instr → Bool
  | .len => true
  | .row colors _ _ => lanesFit colors
  | .ovl colors _ _ _ ofs => lanesFit colors && ofsFits ofs
  | .pop => true
  | .drop => true
  | .clr => true
  | .cnt => true
  | .get idx => idxFits idx
  | .set idx _ => idxFits idx
  | .enq _ => true
  | .enqb n smp0 smp1 smp2 => unusedSlotsClear n smp0 smp1 smp2
  | .deq => true
  | .rclr => true

end Sys2Proof.Instr
end

