-- ==== Sys2Proof/Decode.lean ====
section
/-! DEFINITION. The command word (`30_encoding.md`): the opcode map, decoding (total, rejecting by name), and the
encoder written from the same field tables. -/

namespace Sys2Proof

open Bits

/-- A row of the match and mask table of R62: `w` selects the row when `w & mask == match`. -/
structure OpcodeRow where
  mnemonic : String
  pattern : Cmd
  mask : Cmd
deriving DecidableEq, Repr

/-- The match and mask table of R62. -/
def opcodeRows : List OpcodeRow :=
  [ ⟨"LEN", 0x0000000000000001, 0xFFFFFFFFFFFFFFFF⟩,
    ⟨"ROW", 0x0000000000000002, 0xFFFFFFFFF00000FF⟩,
    ⟨"OVL", 0x0000000000000003, 0xFFF00000000000FF⟩,
    ⟨"POP", 0x0000000000000004, 0xFFFFFFFFFFFFFFFF⟩,
    ⟨"DROP", 0x0000000000000005, 0xFFFFFFFFFFFFFFFF⟩,
    ⟨"CLR", 0x0000000000000006, 0xFFFFFFFFFFFFFFFF⟩,
    ⟨"CNT", 0x0000000000000008, 0xFFFFFFFFFFFFFFFF⟩,
    ⟨"GET", 0x0000000000000009, 0xFFFFFFFFFF0000FF⟩,
    ⟨"SET", 0x000000000000000A, 0xFFFFFF00000000FF⟩,
    ⟨"ENQ", 0x000000000000000B, 0xFFFFFFFFFF0000FF⟩,
    ⟨"ENQB", 0x000000000000000C, 0xFC000000000000FF⟩,
    ⟨"DEQ", 0x000000000000000D, 0xFFFFFFFFFFFFFFFF⟩,
    ⟨"RCLR", 0x000000000000000E, 0xFFFFFFFFFFFFFFFF⟩ ]

/-- Why a word is illegal: the three cases of R63 (log entry 13). -/
inductive DecodeError where
  /-- R63 (a): `cmd[3:0]` is 0x0, 0x7 or 0xF. -/
  | reservedOpcode
  /-- R63 (b): a bit its format marks `0` is 1. -/
  | reservedBits
  /-- R63 (c): an ENQB slot `SMPk` with `k >= N` is nonzero. -/
  | unusedSlot
deriving DecidableEq, Repr

/-- The command, where the reserved fields of its format are zero (R50 to R57, R63 (b)). -/
def whenClear (reserved : List Nat) (i : Instr) : Except DecodeError Instr :=
  if reserved.all (· == 0) then .ok i else .error .reservedBits

/-- `colors[k] = cmd[9+2k : 8+2k]`, k = 0..7 (R58). -/
def lanesOf (w : Nat) : List ColorIdx :=
  [Fin.ofNat 4 (slice w 9 8), Fin.ofNat 4 (slice w 11 10), Fin.ofNat 4 (slice w 13 12),
   Fin.ofNat 4 (slice w 15 14), Fin.ofNat 4 (slice w 17 16), Fin.ofNat 4 (slice w 19 18),
   Fin.ofNat 4 (slice w 21 20), Fin.ofNat 4 (slice w 23 22)]

/-- PAL, `cmd[26:24]` (R52, R53). -/
def palOf (w : Nat) : PalIdx := Fin.ofNat 8 (slice w 26 24)

/-- PRIO, `cmd[27]` (R52, R53). -/
def prioOf (w : Nat) : Bool := slice w 27 27 == 1

/-- `SMPk = cmd[23+16k : 8+16k]` of format B (R57); `SMP0` is also format S's SMP (R56). -/
def slotOf (w k : Nat) : SampleWord := BitVec.ofNat 16 (slice w (23 + 16 * k) (8 + 16 * k))

/-- Format B: the reserved fields, then the unused slots (R57, R64). -/
def decodeBatch (w : Nat) : Except DecodeError Instr :=
  if slice w 7 4 == 0 && slice w 63 58 == 0 then
    if Instr.unusedSlotsClear (Fin.ofNat 4 (slice w 57 56)) (slotOf w 0) (slotOf w 1) (slotOf w 2) then
      .ok (.enqb (Fin.ofNat 4 (slice w 57 56)) (slotOf w 0) (slotOf w 1) (slotOf w 2))
    else .error .unusedSlot
  else .error .reservedBits

/-- `decode` of R64. Every 64-bit word decodes to exactly one command or is ILLEGAL, by name. -/
def decode (cmd : Cmd) : Except DecodeError Instr :=
  let w := cmd.toNat
  match slice w 3 0 with
  | 0x1 => whenClear [slice w 63 4] .len
  | 0x2 => whenClear [slice w 7 4, slice w 63 28] (.row (lanesOf w) (palOf w) (prioOf w))
  | 0x3 =>
    whenClear [slice w 7 4, slice w 63 52]
      (.ovl (lanesOf w) (palOf w) (prioOf w) (Fin.ofNat 256 (slice w 35 28)) (sext16 (slice w 51 36)))
  | 0x4 => whenClear [slice w 63 4] .pop
  | 0x5 => whenClear [slice w 63 4] .drop
  | 0x6 => whenClear [slice w 63 4] .clr
  | 0x8 => whenClear [slice w 63 4] .cnt
  | 0x9 => whenClear [slice w 7 4, slice w 63 24] (.get (slice w 23 8))
  | 0xA => whenClear [slice w 7 4, slice w 63 40] (.set (slice w 23 8) (BitVec.ofNat 16 (slice w 39 24)))
  | 0xB => whenClear [slice w 7 4, slice w 63 24] (.enq (slotOf w 0))
  | 0xC => decodeBatch w
  | 0xD => whenClear [slice w 63 4] .deq
  | 0xE => whenClear [slice w 63 4] .rclr
  | _ => .error .reservedOpcode

/-- The opcode of each command (R62). -/
def Instr.opcode : Instr → Nat
  | .len => 0x1
  | .row _ _ _ => 0x2
  | .ovl _ _ _ _ _ => 0x3
  | .pop => 0x4
  | .drop => 0x5
  | .clr => 0x6
  | .cnt => 0x8
  | .get _ => 0x9
  | .set _ _ => 0xA
  | .enq _ => 0xB
  | .enqb _ _ _ _ => 0xC
  | .deq => 0xD
  | .rclr => 0xE

/-- LANES: two bits per lane, lane 0 lowest (R58). -/
def packLanes : List ColorIdx → Nat
  | [] => 0
  | c :: rest => c.val + 4 * packLanes rest

/-- The operand fields of a command above its opcode byte, each at its place in `cmd` (R51 to R57). -/
def Instr.operandBits : Instr → Nat
  | .len => 0
  | .row colors pal prio => packLanes colors * 2 ^ 8 + pal.val * 2 ^ 24 + bit prio * 2 ^ 27
  | .ovl colors pal prio oam ofs =>
    packLanes colors * 2 ^ 8 + pal.val * 2 ^ 24 + bit prio * 2 ^ 27 + oam.val * 2 ^ 28 + twos16 ofs * 2 ^ 36
  | .pop => 0
  | .drop => 0
  | .clr => 0
  | .cnt => 0
  | .get idx => idx * 2 ^ 8
  | .set idx smp => idx * 2 ^ 8 + smp.toNat * 2 ^ 24
  | .enq smp => smp.toNat * 2 ^ 8
  | .enqb n smp0 smp1 smp2 =>
    smp0.toNat * 2 ^ 8 + smp1.toNat * 2 ^ 24 + smp2.toNat * 2 ^ 40 + n.val * 2 ^ 56
  | .deq => 0
  | .rclr => 0

/-- The command word of an instruction. -/
def encode (i : Instr) : Cmd := BitVec.ofNat 64 (i.opcode + i.operandBits)

/-- The host's question: the instruction this decoder reads from the low `nbits` bits of `w`. -/
def decodeTableWord (nbits w : Nat) : Option Instr :=
  match decode (BitVec.ofNat 64 (w % 2 ^ nbits)) with
  | .ok i => some i
  | .error _ => none

end Sys2Proof
end

