-- ==== Sys2Proof/Config.lean ====
section
/-! DEFINITION. What an implementation fixes (the named parameters of R7) and the free values.
The parameters are plain data that the machine carries unchanged (log entry 1), so that every statement holds
for every legal choice of them; `Params.standard` holds the defaults the spec decides. -/

namespace Sys2Proof

/-- The parameter `OVL_START` (R7, D11): the first lane `Overlay` examines. -/
inductive OvlStart where
  /-- `ZERO`, the default: every lane is examined from `j = 0`. -/
  | zero
  /-- `FROM_OFFSET`: lanes `j < max(offset, 0)` are skipped. -/
  | fromOffset
deriving DecidableEq, Repr

/-- A displayable color: "any type" (R7), its values named by numbers. The block routes colors and never computes on
one (D10, U5), so the numbering is all that the machine needs of the type (log entry 5). -/
abbrev Color := Nat

/-- The parameters `Color` and `colorBits : Color -> COLOR_W bits` (R7, R65, D10, U5), as plain data. -/
inductive ColorType where
  /-- The default: a COLOR_W-bit unsigned value, whose bits are its own. -/
  | unsigned
  /-- A type of as many colors as the list is long, color `c` encoded as entry `c`. -/
  | table (bits : List Nat)
  /-- Any other type: the `k`-th encoding that nothing is known of. -/
  | other (k : Nat)
deriving DecidableEq, Repr

/-- The parameters of R7. `OAM_W` is "fixed at 8 by the encoding" and is no field. -/
structure Params where
  /-- `MAX_CAP`, the largest capacity the ring buffer may grow to (D7). -/
  maxCap : Nat
  /-- `INIT_CAP`, the capacity at reset (D8). -/
  initCap : Nat
  /-- `OVL_START` (D11). -/
  ovlStart : OvlStart
  /-- `Color` and its `colorBits` (D10). -/
  color : ColorType
  /-- `COLOR_W`, the width of a color's encoding in RDATA (D10). -/
  colorW : Nat
  /-- `REG_W`, the width of a register of the surrounding bank, environment only (D31). -/
  regW : Nat
deriving DecidableEq, Repr

/-- An encoding takes its colors to COLOR_W bits, and the type has a color. -/
def ColorType.legal (colorW : Nat) : ColorType → Bool
  | .unsigned => true
  | .table bits => !bits.isEmpty && bits.all fun b => decide (b < 2 ^ colorW)
  | .other _ => true

/-- The legal values of R7. -/
def Params.legal (p : Params) : Bool :=
  Bits.isPow2 p.maxCap && decide (8 ≤ p.maxCap) && decide (p.maxCap ≤ 32768)
    && Bits.isPow2 p.initCap && decide (1 ≤ p.initCap) && decide (p.initCap ≤ p.maxCap)
    && decide (1 ≤ p.colorW) && decide (p.colorW ≤ 32) && decide (1 ≤ p.regW)
    && p.color.legal p.colorW

/-- The defaults of R7 (log entry 7). REG_W is OPEN there: 8 is PRESUMED (log entry 6;
`93_implementation_defined.md` G4). -/
def Params.standard : Params :=
  { maxCap := 32768, initCap := 16, ovlStart := .zero, color := .unsigned, colorW := 15, regW := 8 }

/-- FREE VALUE (log entry 2): a sample of `Q` after an OVL OUT_OF_RANGE fault, which R95 leaves unspecified
(U2: "any value"). No body: nothing can evaluate it. -/
opaque Config.freeSample : Nat → Sample

/-- The encodings of `ColorType.other` (log entry 5), uninterpreted: a statement about one holds for every
`colorBits`. No body. -/
opaque Config.otherColorBits : Nat → Color → Nat

/-- FREE VALUE (log entry 12): what a raw-address read of the register bank answers where no register lies;
R47 calls it permissive and gives no value. -/
opaque Config.freeRegData : Nat → Nat

end Sys2Proof
end

