-- ==== Sys2Proof/Machine/State.lean ====
section
/-! DEFINITION. The state of the machine as plain data: the block's architectural state (R13), its outputs (R24,
R27, R28), the inputs it borrows (R25, R26), the host's command stream (R28, R40), the register bank of the
environment rules (R46, R47), and the parameters (R7). -/

namespace Sys2Proof.Machine

/-- A palette bank: 8 x 4 = 32 entries, entry `(pal, color)` at `4 * pal + color` (R6, R26, R33). -/
abbrev Bank := Vector Color 32

/-- The two banks of R26. -/
inductive BankName where
  /-- `BgPal`. -/
  | bg
  /-- `ObjPal`. -/
  | obj
deriving DecidableEq, Repr

/-- The inputs the block borrows: the surrounding subsystem drives them, the block never writes them (R25, R26). -/
structure Inputs where
  /-- `bg_en`, the background/window-enable flag (R25). -/
  bgEn : Bool
  /-- `BgPal` (R26). -/
  bgPal : Bank
  /-- `ObjPal` (R26). -/
  objPal : Bank
deriving DecidableEq, Repr

/-- A response `(RSTAT[3:0], RDATA[31:0])` (R65). -/
structure Response where
  rstat : BitVec 4
  rdata : Data
deriving DecidableEq, Repr

/-- The access mode of a register of the surrounding bank (R46). -/
inductive AccessMode where
  | readOnly
  | writeOnly
  | readWrite
deriving DecidableEq, Repr

/-- A named register of the surrounding bank: its identity, its address, its access mode, its value (R46, R47). -/
structure BankRegister where
  identity : Nat
  addr : Nat
  mode : AccessMode
  value : Nat
deriving DecidableEq, Repr

/-- The register bank of the environment (R46, R47): its registers, and what its last read answered. -/
structure RegBank where
  registers : List BankRegister
  readData : Option Nat
deriving DecidableEq, Repr

/-- How the environment's software names a register of the bank (R47). -/
inductive RegName where
  /-- By identity: an unknown one "fails loudly". -/
  | byIdentity (id : Nat)
  /-- By raw address, "which is permissive". -/
  | byAddress (addr : Nat)
deriving DecidableEq, Repr

/-- What the outside world does to the block, one event at a time (R28, R40, R102, R110). -/
inductive PortEvent where
  /-- The host presents one command word (R28). -/
  | command (w : Cmd)
  /-- The host applies reset (R102, R104). -/
  | reset
  /-- The surrounding subsystem drives `bg_en` between two commands (R25, R110). -/
  | driveBgEn (b : Bool)
  /-- The surrounding subsystem changes one entry of a palette bank between two commands (R26, R110; log entry 17). -/
  | drivePal (bank : BankName) (pal : PalIdx) (color : ColorIdx) (c : Color)
  /-- The environment reads a register of its bank (R46, R47). -/
  | bankRead (name : RegName)
  /-- The environment writes a register of its bank (R46, R47). -/
  | bankWrite (name : RegName) (value : Nat)
  /-- Two agents present a command each, without serialization (R101; log entry 11). -/
  | concurrent (w₁ w₂ : Cmd)
  /-- An input changes while command `w` executes, which the host must not do (R110; U9; log entry 11). -/
  | unstable (w : Cmd)
deriving DecidableEq, Repr

/-- Why the model stops with a fault. The block's own faults (R88) are NOT here: they are next states (R95). -/
inductive Fault where
  /-- SAFE. Raised by the environment's register bank when it is asked for a register identity unknown to it:
  "a fault of the environment, never ... a value" (R47, U18). No command raises it. -/
  | unknownRegister (id : Nat)
deriving DecidableEq, Repr

/-- Why the model gives no next state. No command that is presented alone is refused by the model. -/
inductive Refusal where
  /-- SAFE. Raised by an arm of `exec` whose instruction has no meaning yet; no arm does. -/
  | notModelled (mnemonic : String)
  /-- SAFE. Raised by `PortEvent.concurrent`: "Such a run is refused, not given an interleaving" (R101, U8). -/
  | concurrentIssue
  /-- SAFE. Raised by `PortEvent.unstable`: an input that changes during a command (R110; U9: "refuse"). -/
  | unstableInputs
deriving DecidableEq, Repr

/-- The state. -/
structure State where
  /-- The parameters of R7; no step changes them (log entry 1). -/
  cfg : Params
  /-- The host's command stream, next event first (R28, R40; log entry 3). -/
  inbox : List PortEvent
  /-- `Q`, the queue contents, front first (R10, R13, R17). -/
  q : List Sample
  /-- `cap`, the logical capacity (R13, R18). -/
  cap : Nat
  /-- `FSTAT` (R21). -/
  fstat : BitVec 16
  /-- `FINDEX` (R22). -/
  findex : Data
  /-- `FCOUNT` (R23). -/
  fcount : Data
  /-- The response of the last command, `none` when none is pending (R28, R31, R65; log entry 8). -/
  resp : Option Response
  /-- `SinkOut`, the colors delivered to the display sink, oldest first (R27). -/
  sinkOut : List Color
  /-- The inputs `bg_en`, `BgPal` and `ObjPal` (R25, R26). -/
  inputs : Inputs
  /-- The environment's register bank (R46, R47). -/
  bank : RegBank
  /-- The MODEL's own counter, which picks the next free value (log entry 2). -/
  free : Nat
deriving DecidableEq, Repr

/-- What a step or a meaning answers. -/
abbrev Result := Host.Outcome State Fault Refusal

/-- Inputs nobody has driven yet: the spec gives them no reset value (R31, U19; log entry 4). -/
def Inputs.undriven : Inputs :=
  { bgEn := false, bgPal := Vector.replicate 32 0, objPal := Vector.replicate 32 0 }

/-- A register bank without registers: the source names none (R46 to R48; log entry 12). -/
def RegBank.none : RegBank := { registers := [], readData := Option.none }

/-- The state right after reset, for given parameters and driven inputs (R31, R102). -/
def State.resetWith (cfg : Params) (inputs : Inputs) : State :=
  { cfg := cfg, inbox := [], q := [], cap := cfg.initCap, fstat := 0, findex := 0, fcount := 0,
    resp := none, sinkOut := [], inputs := inputs, bank := RegBank.none, free := 0 }

/-- The state right after reset under the default parameters of R7 (R31, R102). -/
def State.reset : State := State.resetWith Params.standard Inputs.undriven

end Sys2Proof.Machine
end

