-- ==== Sys2Proof/Machine/Flags.lean ====
section
/-! DEFINITION. The status bits. The block has no condition codes (R20), so every command's "flags" are none (R12);
its only status bits are those of `FSTAT` (R21). This file holds their layout and the fault codes (R88). -/

namespace Sys2Proof.Machine

open Sys2Proof.Bits

/-- The faults of R88. -/
inductive FaultCode where
  | illegalCmd
  | illegalSample
  | outOfRange
  | emptyQueue
  | capacity
deriving DecidableEq, Repr

/-- The code of a fault: FSTAT.FCODE, and the RSTAT of the faulting command (R65, R88). -/
def FaultCode.code : FaultCode → Nat
  | .illegalCmd => 1
  | .illegalSample => 2
  | .outOfRange => 3
  | .emptyQueue => 4
  | .capacity => 5

/-- RSTAT of a command that ends without a raise (R65). -/
def rstatOk : BitVec 4 := 0

/-- RSTAT of a command refused because the block has faulted (R65, R96). -/
def rstatHalted : BitVec 4 := 7

namespace FStat

/-- `FSTAT[0]`, FAULT, which is also `fault_o` (R21, R28). -/
def fault (f : BitVec 16) : Bool := slice f.toNat 0 0 == 1

/-- `FSTAT[4:1]`, FCODE (R21). -/
def fcode (f : BitVec 16) : Nat := slice f.toNat 4 1

/-- `FSTAT[7:5]`, FLANE (R21). -/
def flane (f : BitVec 16) : Nat := slice f.toNat 7 5

/-- `FSTAT[11:8]`, FOP (R21). -/
def fop (f : BitVec 16) : Nat := slice f.toNat 11 8

/-- `FSTAT[15:12]`, reserved: "always reads 0" (R21). -/
def reserved (f : BitVec 16) : Nat := slice f.toNat 15 12

/-- `{0b0000, cmd[3:0], l[2:0], f[3:0], 0b1}` (R95). -/
def pack (op lane : Nat) (f : FaultCode) : BitVec 16 :=
  BitVec.ofNat 16 (1 + f.code * 2 ^ 1 + lane % 2 ^ 3 * 2 ^ 5 + op % 2 ^ 4 * 2 ^ 8)

/-- The legal values of R21: the reserved field reads 0, FCODE is in {0,1,2,3,4,5}, and FCODE = 0 iff FAULT = 0. -/
def legal (f : BitVec 16) : Bool :=
  reserved f == 0 && decide (fcode f ≤ 5) && (decide (fcode f = 0) == !fault f)

end FStat

/-- The block is halted: `FSTAT.FAULT = 1` (R96). -/
def State.halted (s : State) : Bool := FStat.fault s.fstat

/-- The status output `fault_o` (R28, R98). -/
def State.faultO (s : State) : Bool := FStat.fault s.fstat

/-- The status output `CAP_O`, "always equals `cap`" (R24). -/
def State.capO (s : State) : BitVec 16 := BitVec.ofNat 16 s.cap

end Sys2Proof.Machine
end

