-- ==== Sys2Proof/Machine/Operands.lean ====
section
/-! DEFINITION. Operand forms: the sample word (R60, R61), the queue index (R34), the palette entry (R33), the
first lane of an overlay (R81). -/

namespace Sys2Proof.Machine

open Sys2Proof.Bits

/-- "A sample word is well-formed iff KIND != 11, and s[15] = 0, and (KIND = 10 or OAM = 0)" (R60). -/
def sampleWellFormed (s : SampleWord) : Bool :=
  slice s.toNat 6 5 != 3 && slice s.toNat 15 15 == 0
    && (slice s.toNat 6 5 == 2 || slice s.toNat 14 7 == 0)

/-- The tag of a well-formed sample word, by KIND (R61). -/
def tagOf (s : SampleWord) : Tag :=
  match slice s.toNat 6 5 with
  | 0 => .ordBg
  | 1 => .bgPrio
  | _ => .sprite (Fin.ofNat 256 (slice s.toNat 14 7))

/-- `decodeSample(s)` (R61); none on a word that is not well-formed, which encodes no sample. -/
def decodeSample (s : SampleWord) : Option Sample :=
  if sampleWellFormed s then
    some { color := Fin.ofNat 4 (slice s.toNat 1 0), pal := Fin.ofNat 8 (slice s.toNat 4 2), tag := tagOf s }
  else none

/-- `{kind, o}` of a tag (R61): its KIND and OAM fields. -/
def kindOam : Tag → Nat × Nat
  | .ordBg => (0, 0)
  | .bgPrio => (1, 0)
  | .sprite o => (2, o.val)

/-- `encodeSample`: `{0b0, o[7:0], kind[1:0], p[2:0], c[1:0]}` (R61). -/
def encodeSample (x : Sample) : SampleWord :=
  BitVec.ofNat 16 (x.color.val + x.pal.val * 2 ^ 2 + (kindOam x.tag).1 * 2 ^ 5 + (kindOam x.tag).2 * 2 ^ 7)

/-- The samples of a list of sample words, or the lowest slot that is not well-formed with its word (R73, R94);
`k` is the slot of the first word. -/
def decodeSamples : Nat → List SampleWord → Except (Nat × SampleWord) (List Sample)
  | _, [] => .ok []
  | k, s :: rest =>
    match decodeSample s with
    | none => .error (k, s)
    | some x =>
      match decodeSamples (k + 1) rest with
      | .error e => .error e
      | .ok xs => .ok (x :: xs)

/-- The sample words of a batch: `[SMP0, ..., SMP(N-1)]` in that order (R57). -/
def batchWords (n : Fin 4) (smp0 smp1 smp2 : SampleWord) : List SampleWord := [smp0, smp1, smp2].take n.val

/-- The eight samples of a row, in left-to-right order, sharing palette and tag (R78). -/
def rowSamples (colors : List ColorIdx) (pal : PalIdx) (prio : Bool) : List Sample :=
  colors.map fun c => { color := c, pal := pal, tag := if prio then .bgPrio else .ordBg }

/-- `Q[i]` at an integer index, none where `i` is not in [0, |Q|): it never clamps (R34, R91). -/
def sampleAt (q : List Sample) (i : Int) : Option Sample :=
  if 0 ≤ i then q[i.toNat]? else none

/-- The first lane `Overlay` examines: `jStart = (OVL_START = ZERO) ? 0 : max(offset, 0)` (R81, D11). -/
def firstLane (start : OvlStart) (ofs : Int) : Int :=
  match start with
  | .zero => 0
  | .fromOffset => max ofs 0

/-- Entry `(pal, color)` of a palette bank; every pair is a valid entry (R33, R35). -/
def bankEntry (b : Bank) (pal : PalIdx) (color : ColorIdx) : Color :=
  b[pal.val * 4 + color.val]'(by omega)

/-- A bank with entry `(pal, color)` changed. -/
def bankWith (b : Bank) (pal : PalIdx) (color : ColorIdx) (c : Color) : Bank :=
  b.set (pal.val * 4 + color.val) c (by omega)

/-- The values of the parameter `Color` (R7, D10). -/
def isColor (p : Params) (c : Color) : Bool :=
  match p.color with
  | .unsigned => decide (c < 2 ^ p.colorW)
  | .table bits => decide (c < bits.length)
  | .other _ => true

/-- What the parameter encoding says of a color (R7, D10; log entry 5). -/
def encodeColor (t : ColorType) (c : Color) : Nat :=
  match t with
  | .unsigned => c
  | .table bits => bits.getD c 0
  | .other k => Config.otherColorBits k c

/-- `zext_32(colorBits(color))`, where `colorBits : Color -> COLOR_W bits` (R65, R84). -/
def colorBits (p : Params) (c : Color) : Data := BitVec.ofNat 32 (encodeColor p.color c % 2 ^ p.colorW)

end Sys2Proof.Machine
end

