-- ==== Sys2Proof/Machine/Ops.lean ====
section
/-! DEFINITION. The shared operations the meanings are written over: responding, taking a fault and returning to
service, the halted check, capacity growth, appending at the back, removing the front, the priority mux and its
lane loop, the palette-bank arbiter. -/

namespace Sys2Proof.Machine

open Sys2Proof.Bits

/-! ### Updates of the state -/

/-- `respond(code, data)`: drive the response of the current command (R11, R65). -/
def State.respond (s : State) (rstat : BitVec 4) (rdata : Data) : State :=
  { s with resp := some { rstat := rstat, rdata := rdata } }

/-- `Q <- q`. -/
def State.withQueue (s : State) (q : List Sample) : State := { s with q := q }

/-- `cap <- cap`. -/
def State.withCap (s : State) (cap : Nat) : State := { s with cap := cap }

/-- `Sink(color)`: `SinkOut <- SinkOut ++ [color]` (R27, R84). -/
def State.deliver (s : State) (c : Color) : State := { s with sinkOut := s.sinkOut ++ [c] }

/-- The inputs as the surrounding subsystem drives them (R110). -/
def State.withInputs (s : State) (inputs : Inputs) : State := { s with inputs := inputs }

/-- The environment's register bank (R46). -/
def State.withBank (s : State) (bank : RegBank) : State := { s with bank := bank }

/-- The host's command stream. -/
def State.withInbox (s : State) (inbox : List PortEvent) : State := { s with inbox := inbox }

/-- The fault registers of R95, as one update; FCOUNT takes the count `|Q|` of `s`, so a meaning calls it on the
state at the start of its command. -/
def State.recordFault (s : State) (op : Nat) (f : FaultCode) (lane : Nat) (info : Data) : State :=
  { s with fstat := FStat.pack op lane f, findex := info, fcount := BitVec.ofNat 32 s.q.length }

/-- `Q` takes any value with `|Q|` unchanged (R95, U2): `|Q|` free values, and the counter past them. -/
def State.forgetQueue (s : State) : State :=
  { s with
    q := (List.range s.q.length).map fun k => Config.freeSample (s.free + k)
    free := s.free + s.q.length }

/-! ### Outcomes of a command (R87) -/

/-- A command that ends without a raise responds OK with its data (R12, R65). -/
def ok (data : Data) (s : State) : Result := .next (s.respond rstatOk data)

/-- FAULT ENTRY, the block's trap entry, in one step (R95): the fault registers take the code, the lane, the
opcode, the information and the count, and the response is the code with no data. -/
def raise (op : Nat) (f : FaultCode) (lane : Nat) (info : Data) (s : State) : Result :=
  .next ((s.recordFault op f lane info).respond (BitVec.ofNat 4 f.code) 0)

/-- THE RETURN TO SERVICE: "No command returns from a fault ... Only reset" does (R97). The block's own state
takes the values of R31; what it does not own (parameters, inputs, command stream, register bank) is kept
(log entry 15). -/
def State.resetBlock (s : State) : State :=
  { State.resetWith s.cfg s.inputs with inbox := s.inbox, bank := s.bank, free := s.free }

/-- Every command reads `FSTAT[0]` first: a halted block refuses it, with RSTAT = 7 and no other effect
(R32, R94 step 1, R96; log entry 10). -/
def unlessHalted (s : State) (command : Result) : Result :=
  if s.halted then .next (s.respond rstatHalted 0) else command

/-! ### The ring buffer -/

/-- `Grow(n)` (R68): none is `raise CAPACITY(|Q| + n)`. -/
def grow (n : Nat) (s : State) : Option State :=
  if s.q.length + n ≤ s.cap then some s
  else if nextPow2 (s.q.length + n) ≤ s.cfg.maxCap then some (s.withCap (nextPow2 (s.q.length + n)))
  else none

/-- `Grow(|xs|)`, then append at the back, all or nothing (R38, R68, R72, R73, R78). -/
def appendBack (op : Nat) (xs : List Sample) (s : State) : Result :=
  match grow xs.length s with
  | none => raise op .capacity 0 (BitVec.ofNat 32 (s.q.length + xs.length)) s
  | some t => ok 0 (t.withQueue (t.q ++ xs))

/-- Remove the front sample and go on with it, or EMPTY_QUEUE (R74, R84, R85, R92). -/
def removeFront (op : Nat) (s : State) (andThen : Sample → State → Result) : Result :=
  match s.q with
  | [] => raise op .emptyQueue 0 0 s
  | x :: rest => andThen x (s.withQueue rest)

/-- The count as response data, `zext_32(|Q|)` (R65). -/
def State.countData (s : State) : Data := BitVec.ofNat 32 s.q.length

/-- A sample as response data, `zext_32(encodeSample(x))` (R65). -/
def sampleData (x : Sample) : Data := (encodeSample x).setWidth 32

/-- `Q <- []`, capacity retained (R75, R86). -/
def clearQueue (s : State) : Result := ok 0 (s.withQueue [])

/-! ### The priority mux -/

/-- `Mux(old, bgEn, sprPrio, oam)`, the six rules in order, first match wins (R79). -/
def mux (old : Sample) (bgEn sprPrio : Bool) (oam : OamIdx) : Bool :=
  if !bgEn && (old.tag == .ordBg || old.tag == .bgPrio) then true
  else if old.tag == .bgPrio then old.color == 0
  else if old.tag == .ordBg && !sprPrio then true
  else if old.tag == .ordBg && sprPrio && old.color == 0 then true
  else
    match old.tag with
    | .sprite o => decide (oam < o)
    | _ => false

/-- The lane loop of `Overlay` (R81): `j` is the lane of the first color of the run, ascending; lanes before
`start` and transparent lanes are skipped; the first lane whose target is out of range ends it with that lane and
index (log entries 16, 18). -/
def overlay (start : Int) (bgEn : Bool) (pal : PalIdx) (sprPrio : Bool) (oam : OamIdx) (ofs : Int) :
    Nat → List ColorIdx → List Sample → Except (Nat × Int) (List Sample)
  | _, [], q => .ok q
  | j, c :: rest, q =>
    if (j : Int) < start || c == 0 then overlay start bgEn pal sprPrio oam ofs (j + 1) rest q
    else
      match sampleAt q (j - ofs) with
      | none => .error (j, j - ofs)
      | some old =>
        overlay start bgEn pal sprPrio oam ofs (j + 1) rest
          (if mux old bgEn sprPrio oam then
            q.set (j - ofs).toNat { color := c, pal := pal, tag := .sprite oam }
          else q)

/-! ### The palette-bank arbiter -/

/-- `Arb(s)`: the tag alone selects the bank (R83). -/
def arbitrate (inputs : Inputs) (x : Sample) : Color :=
  match x.tag with
  | .sprite _ => bankEntry inputs.objPal x.pal x.color
  | .ordBg => bankEntry inputs.bgPal x.pal x.color
  | .bgPrio => bankEntry inputs.bgPal x.pal x.color

end Sys2Proof.Machine
end

