-- ==== Sys2Proof/Machine/Composer.lean ====
section
/-! DEFINITION. The pixel-composer commands LEN, ROW, OVL, POP, DROP, CLR (`41_composer.md`, R77 to R86). -/

namespace Sys2Proof.Machine

open Sys2Proof.Bits

/-- LEN (R77): "identical to CNT". -/
def execLen (s : State) : Result := unlessHalted s (ok s.countData s)

/-- ROW (R78). -/
def execRow (colors : List ColorIdx) (pal : PalIdx) (prio : Bool) (s : State) : Result :=
  unlessHalted s (appendBack 0x2 (rowSamples colors pal prio) s)

/-- OVL (R81): `bg_en` is sampled once, at the start of the command (R42). A faulting overlay leaves `Q`
unspecified, with `|Q|` and `cap` unchanged (R95; log entry 2). -/
def execOvl (colors : List ColorIdx) (pal : PalIdx) (prio : Bool) (oam : OamIdx) (ofs : Int) (s : State) : Result :=
  unlessHalted s
    (match overlay (firstLane s.cfg.ovlStart ofs) s.inputs.bgEn pal prio oam ofs 0 colors s.q with
     | .error (j, i) => raise 0x3 .outOfRange j (twos32 i) s.forgetQueue
     | .ok q => ok 0 (s.withQueue q))

/-- POP (R84): the banks are read when it executes, the color goes to the sink and to RDATA. -/
def execPop (s : State) : Result :=
  unlessHalted s
    (removeFront 0x4 s fun x t =>
      ok (colorBits s.cfg (arbitrate s.inputs x)) (t.deliver (arbitrate s.inputs x)))

/-- DROP (R85). -/
def execDrop (s : State) : Result := unlessHalted s (removeFront 0x5 s fun _ t => ok 0 t)

/-- CLR (R86): "identical to RCLR". -/
def execClr (s : State) : Result := unlessHalted s (clearQueue s)

end Sys2Proof.Machine
end

