-- ==== Sys2Proof/Machine/RingBuffer.lean ====
section
/-! DEFINITION. The ring-buffer commands CNT, GET, SET, ENQ, ENQB, DEQ, RCLR (`40_ring_buffer.md`, R69 to R75). -/

namespace Sys2Proof.Machine

open Sys2Proof.Bits

/-- CNT (R69). -/
def execCnt (s : State) : Result := unlessHalted s (ok s.countData s)

/-- GET (R70). -/
def execGet (idx : Nat) (s : State) : Result :=
  unlessHalted s
    (match sampleAt s.q idx with
     | none => raise 0x9 .outOfRange 0 (twos32 idx) s
     | some x => ok (sampleData x) s)

/-- SET (R71): the sample word is checked before the index (R94). -/
def execSet (idx : Nat) (smp : SampleWord) (s : State) : Result :=
  unlessHalted s
    (match decodeSample smp with
     | none => raise 0xA .illegalSample 0 (smp.setWidth 32) s
     | some x =>
       match sampleAt s.q idx with
       | none => raise 0xA .outOfRange 0 (twos32 idx) s
       | some _ => ok 0 (s.withQueue (s.q.set idx x)))

/-- ENQ (R72). -/
def execEnq (smp : SampleWord) (s : State) : Result :=
  unlessHalted s
    (match decodeSample smp with
     | none => raise 0xB .illegalSample 0 (smp.setWidth 32) s
     | some x => appendBack 0xB [x] s)

/-- ENQB (R73): the lowest ill-formed slot is reported, and one `Grow` covers the batch. -/
def execEnqb (n : Fin 4) (smp0 smp1 smp2 : SampleWord) (s : State) : Result :=
  unlessHalted s
    (match decodeSamples 0 (batchWords n smp0 smp1 smp2) with
     | .error (k, smp) => raise 0xC .illegalSample k (smp.setWidth 32) s
     | .ok xs => appendBack 0xC xs s)

/-- DEQ (R74). -/
def execDeq (s : State) : Result :=
  unlessHalted s (removeFront 0xD s fun x t => ok (sampleData x) t)

/-- RCLR (R75). -/
def execRclr (s : State) : Result := unlessHalted s (clearQueue s)

end Sys2Proof.Machine
end

