-- ==== Sys2Proof/Machine/Dispatch.lean ====
section
/-! DEFINITION. What each command of R62 does: one arm per constructor of `Instr`. -/

namespace Sys2Proof.Machine

def exec (i : Instr) (s : State) : Host.Outcome State Fault Refusal :=
  match i with
  | .len => Sys2Proof.Machine.execLen s
  | .row colors pal prio => Sys2Proof.Machine.execRow colors pal prio s
  | .ovl colors pal prio oam ofs => Sys2Proof.Machine.execOvl colors pal prio oam ofs s
  | .pop => Sys2Proof.Machine.execPop s
  | .drop => Sys2Proof.Machine.execDrop s
  | .clr => Sys2Proof.Machine.execClr s
  | .cnt => Sys2Proof.Machine.execCnt s
  | .get idx => Sys2Proof.Machine.execGet idx s
  | .set idx smp => Sys2Proof.Machine.execSet idx smp s
  | .enq smp => Sys2Proof.Machine.execEnq smp s
  | .enqb n smp0 smp1 smp2 => Sys2Proof.Machine.execEnqb n smp0 smp1 smp2 s
  | .deq => Sys2Proof.Machine.execDeq s
  | .rclr => Sys2Proof.Machine.execRclr s

end Sys2Proof.Machine
end

