-- ==== Sys2Proof/Machine/RegisterBank.lean ====
section
/-! DEFINITION. The environment's register bank, a collaborator outside the block (R46, R47; in scope as an
interface contract, R4). No rule of the block depends on it, and nothing ties `bg_en` to a register of it (R48). -/

namespace Sys2Proof.Machine

/-- "A fixed fill value (all-bits-set)" at the register width: `2^REG_W - 1` (R46, D31). -/
def fillValue (p : Params) : Nat := 2 ^ p.regW - 1

/-- The register a name selects. -/
def BankRegister.named (r : BankRegister) : RegName → Bool
  | .byIdentity id => r.identity == id
  | .byAddress addr => r.addr == addr

/-- What a read of a register answers: the fill value where it is write-only (R46). -/
def BankRegister.read (p : Params) (r : BankRegister) : Nat :=
  match r.mode with
  | .writeOnly => fillValue p
  | .readOnly => r.value
  | .readWrite => r.value

/-- What a write leaves in a register: "a write to a read-only register ... changes nothing" (R46). -/
def BankRegister.write (p : Params) (v : Nat) (r : BankRegister) : BankRegister :=
  match r.mode with
  | .readOnly => r
  | .writeOnly => { r with value := v % 2 ^ p.regW }
  | .readWrite => { r with value := v % 2 ^ p.regW }

/-- Write the first register a name selects. -/
def writeFirst (p : Params) (name : RegName) (v : Nat) : List BankRegister → List BankRegister
  | [] => []
  | r :: rest => if r.named name then r.write p v :: rest else r :: writeFirst p name v rest

/-- A read of the bank. An unknown identity faults (R47); a raw address with no register is permissive and
answers a value the spec does not state (log entry 12). -/
def bankReadStep (name : RegName) (s : State) : Result :=
  match s.bank.registers.find? (fun r => r.named name) with
  | some r => .next (s.withBank { s.bank with readData := some (r.read s.cfg) })
  | none =>
    match name with
    | .byIdentity id => .fault (.unknownRegister id)
    | .byAddress _ =>
      .next { s with
        bank := { s.bank with readData := some (Config.freeRegData s.free % 2 ^ s.cfg.regW) }
        free := s.free + 1 }

/-- A write of the bank. An unknown identity faults (R47); a raw address with no register changes nothing. -/
def bankWriteStep (name : RegName) (v : Nat) (s : State) : Result :=
  match s.bank.registers.find? (fun r => r.named name) with
  | some _ => .next (s.withBank { s.bank with registers := writeFirst s.cfg name v s.bank.registers })
  | none =>
    match name with
    | .byIdentity id => .fault (.unknownRegister id)
    | .byAddress _ => .next s

end Sys2Proof.Machine
end

