-- ==== Sys2Proof/Machine/Port.lean ====
section
/-! DEFINITION. The command port (R28) and the other things the outside world does to the block: what one event of
the host's stream does. -/

namespace Sys2Proof.Machine

open Sys2Proof.Bits

/-- ILLEGAL_CMD (R89): a word that `decode` refuses, recorded with its low half and its opcode bits, unless the
block is halted, which is checked first (R94). -/
def illegalCommand (w : Cmd) (s : State) : Result :=
  unlessHalted s (raise (slice w.toNat 3 0) .illegalCmd 0 (w.setWidth 32) s)

/-- A command word presented on the port (R28, R94): it decodes, and its meaning runs. -/
def present (w : Cmd) (s : State) : Result :=
  match decode w with
  | .ok i => exec i s
  | .error _ => illegalCommand w s

/-- An entry of a palette bank driven to a color, which is routed as it is (R26, R110, U5). -/
def drivePalette (inputs : Inputs) (bank : BankName) (pal : PalIdx) (color : ColorIdx) (c : Color) :
    Inputs :=
  match bank with
  | .bg => { inputs with bgPal := bankWith inputs.bgPal pal color c }
  | .obj => { inputs with objPal := bankWith inputs.objPal pal color c }

/-- What one event does. -/
def portStep (e : PortEvent) (s : State) : Result :=
  match e with
  | .command w => present w s
  | .reset => .next s.resetBlock
  | .driveBgEn b => .next (s.withInputs { s.inputs with bgEn := b })
  | .drivePal bank pal color c => .next (s.withInputs (drivePalette s.inputs bank pal color c))
  | .bankRead name => bankReadStep name s
  | .bankWrite name v => bankWriteStep name v s
  | .concurrent _ _ => .refused .concurrentIssue
  | .unstable _ => .refused .unstableInputs

/-- One step: the next event of the host's stream takes effect, whole, before the following one (R28, R40). With
no event the block waits, unchanged (log entry 3). -/
def stepOnce (s : State) : Result :=
  match s.inbox with
  | [] => .next s
  | e :: rest => portStep e (s.withInbox rest)

/-- The command word `w` (its low `nbits` bits) as the next event of the host's stream. -/
def placeCommand (s : State) (nbits w : Nat) : State :=
  s.withInbox (.command (BitVec.ofNat 64 (w % 2 ^ nbits)) :: s.inbox)

end Sys2Proof.Machine
end

