-- ==== Sys2Proof/Machine/Step.lean ====
section
/-! DEFINITION. The step function and the placing of the next command. -/

namespace Sys2Proof.Machine

/-- One step of the machine. -/
def step (s : State) : Host.Outcome State Fault Refusal := stepOnce s

/-- `s` with the given command word as the one the very next step takes. -/
def State.withFetchWord (s : State) (nbits w : Nat) : State := placeCommand s nbits w

end Sys2Proof.Machine
end

