-- ==== Sys2Proof/Machine/Assembler.lean ====
section
/-! DEFINITION. The assembler syntax of R66 (a lexer over characters, a parser over tokens, a printer back to
tokens) and the pseudo-instruction of R67 (overlay runs shorter or longer than eight lanes). What R66 leaves open of its
syntax is in log entry 14. -/

namespace Sys2Proof.Asm

open Sys2Proof.Machine

/-- The words of the grammar of R66. -/
inductive Keyword where
  | len | row | ovl | pop | drop | clr | cnt | get | set | enq | enqb | deq | rclr
  | pal | ofs | oam | prio
  | ord | bgp | spr
deriving DecidableEq, Repr

/-- A token of a line. -/
inductive Token where
  | key (k : Keyword)
  | num (n : Int)
  | comma
  | eq
  | lbrace
  | rbrace
  | lparen
  | rparen
deriving DecidableEq, Repr

/-! ### Characters to tokens -/

/-- The spelling of each keyword (R66). -/
def spellings : List (List Char × Keyword) :=
  [ (['L', 'E', 'N'], .len), (['R', 'O', 'W'], .row), (['O', 'V', 'L'], .ovl), (['P', 'O', 'P'], .pop),
    (['D', 'R', 'O', 'P'], .drop), (['C', 'L', 'R'], .clr), (['C', 'N', 'T'], .cnt), (['G', 'E', 'T'], .get),
    (['S', 'E', 'T'], .set), (['E', 'N', 'Q'], .enq), (['E', 'N', 'Q', 'B'], .enqb), (['D', 'E', 'Q'], .deq),
    (['R', 'C', 'L', 'R'], .rclr),
    (['p', 'a', 'l'], .pal), (['o', 'f', 's'], .ofs), (['o', 'a', 'm'], .oam), (['p', 'r', 'i', 'o'], .prio),
    (['O', 'R', 'D'], .ord), (['B', 'G', 'P'], .bgp), (['S', 'P', 'R'], .spr) ]

/-- The value of a digit, hexadecimal digits included. -/
def digitValue (c : Char) : Option Nat :=
  let n := c.toNat
  if 48 ≤ n ∧ n ≤ 57 then some (n - 48)
  else if 65 ≤ n ∧ n ≤ 70 then some (n - 55)
  else if 97 ≤ n ∧ n ≤ 102 then some (n - 87)
  else none

/-- The number a digit string writes in a base; none on an empty string or a digit outside the base. -/
def natOf (base : Nat) (digits : List Char) : Option Nat :=
  if digits.isEmpty then none
  else
    digits.foldl
      (fun acc c => acc.bind fun n => (digitValue c).bind fun d => if d < base then some (n * base + d) else none)
      (some 0)

/-- "Numbers are decimal, or hexadecimal with 0x"; an offset may be signed (R66). -/
def numberOf : List Char → Option Int
  | '0' :: 'x' :: digits => (natOf 16 digits).map Int.ofNat
  | '-' :: digits => (natOf 10 digits).map fun n => -(n : Int)
  | digits => (natOf 10 digits).map Int.ofNat

/-- A word is a keyword or a number. -/
def wordToken (w : List Char) : Option Token :=
  match spellings.find? (fun p => p.1 == w) with
  | some p => some (.key p.2)
  | none => (numberOf w).map .num

/-- The punctuation of R66. The two braces are characters 123 and 125. -/
def punctuation (c : Char) : Option Token :=
  if c == ',' then some .comma
  else if c == '=' then some .eq
  else if c == '(' then some .lparen
  else if c == ')' then some .rparen
  else if c.toNat == 123 then some .lbrace
  else if c.toNat == 125 then some .rbrace
  else none

/-- Close the word read so far (kept last character first) in front of the tokens that follow it. -/
def closeWord (word : List Char) (rest : Option (List Token)) : Option (List Token) :=
  if word.isEmpty then rest
  else
    match wordToken word.reverse, rest with
    | some t, some ts => some (t :: ts)
    | _, _ => none

/-- The tokens of a line; `;` starts a comment (R66). -/
def tokenize : List Char → List Char → Option (List Token)
  | word, [] => closeWord word (some [])
  | word, c :: rest =>
    if c == ';' then closeWord word (some [])
    else if c == ' ' || c == '\t' then closeWord word (tokenize [] rest)
    else
      match punctuation c with
      | some t => closeWord word ((tokenize [] rest).map (t :: ·))
      | none => tokenize (c :: word) rest

/-! ### Tokens to instructions -/

/-- A number in [0, n). -/
def index? (n : Nat) (v : Int) : Option (Fin n) :=
  if h : 0 ≤ v ∧ v < n then some ⟨v.toNat, by omega⟩ else none

/-- The colors at the front of a line, and the tokens behind them. -/
def takeColors : List Token → Option (List ColorIdx × List Token)
  | .num v :: rest =>
    match index? 4 v, takeColors rest with
    | some c, some (cs, rest') => some (c :: cs, rest')
    | _, _ => none
  | rest => some ([], rest)

/-- `, ofs=O`, absent means 0 (R66). -/
def takeOfs : List Token → Int × List Token
  | .comma :: .key .ofs :: .eq :: .num v :: rest => (v, rest)
  | rest => (0, rest)

/-- `, pal=P`. -/
def takePal : List Token → Option (PalIdx × List Token)
  | .comma :: .key .pal :: .eq :: .num v :: rest => (index? 8 v).map fun p => (p, rest)
  | _ => none

/-- `, oam=N`. -/
def takeOam : List Token → Option (OamIdx × List Token)
  | .comma :: .key .oam :: .eq :: .num v :: rest => (index? 256 v).map fun o => (o, rest)
  | _ => none

/-- `[, prio]` at the end of a line. -/
def takePrio : List Token → Option Bool
  | [] => some false
  | [.comma, .key .prio] => some true
  | _ => none

/-- The tag and the closing brace of a SAMPLE. -/
def takeTag : List Token → Option (Tag × List Token)
  | .key .ord :: .rbrace :: rest => some (.ordBg, rest)
  | .key .bgp :: .rbrace :: rest => some (.bgPrio, rest)
  | .key .spr :: .lparen :: .num v :: .rparen :: .rbrace :: rest =>
    (index? 256 v).map fun o => (.sprite o, rest)
  | _ => none

/-- `SAMPLE := {C,P,ORD} | {C,P,BGP} | {C,P,SPR(N)}` (R66). -/
def takeSample : List Token → Option (Sample × List Token)
  | .lbrace :: .num c :: .comma :: .num p :: .comma :: rest =>
    match index? 4 c, index? 8 p, takeTag rest with
    | some color, some pal, some (tag, rest') => some ({ color := color, pal := pal, tag := tag }, rest')
    | _, _, _ => none
  | _ => none

/-- A SAMPLE that ends the line. -/
def lastSample (ts : List Token) : Option Sample :=
  match takeSample ts with
  | some (x, []) => some x
  | _ => none

/-- The pseudo-instruction of R67: a run shorter than eight colors has "lanes L..7 set to 0". -/
def padRun (colors : List ColorIdx) : List ColorIdx := colors ++ List.replicate (8 - colors.length) 0

/-- ROW's operands. -/
def parseRow (ts : List Token) : Option Instr :=
  match takeColors ts with
  | some (colors, ts₁) =>
    match takePal ts₁ with
    | some (pal, ts₂) =>
      match takePrio ts₂ with
      | some prio => if colors.length = 8 then some (.row colors pal prio) else none
      | none => none
    | none => none
  | none => none

/-- OVL's operands; at most eight colors, padded (R67). -/
def parseOvl (ts : List Token) : Option Instr :=
  match takeColors ts with
  | some (colors, ts₁) =>
    match takePal (takeOfs ts₁).2 with
    | some (pal, ts₂) =>
      match takeOam ts₂ with
      | some (oam, ts₃) =>
        match takePrio ts₃ with
        | some prio =>
          if colors.length ≤ 8 ∧ Instr.ofsFits (takeOfs ts₁).1 then
            some (.ovl (padRun colors) pal prio oam (takeOfs ts₁).1)
          else none
        | none => none
      | none => none
    | none => none
  | none => none

/-- SET's operands. -/
def parseSet : List Token → Option Instr
  | .num v :: .comma :: ts =>
    match index? 65536 v, lastSample ts with
    | some i, some x => some (.set i.val (encodeSample x))
    | _, _ => none
  | _ => none

/-- ENQB's operands: no sample, one, two or three. -/
def parseEnqb (ts : List Token) : Option Instr :=
  if ts.isEmpty then some (.enqb 0 0 0 0)
  else
    match takeSample ts with
    | some (x, []) => some (.enqb 1 (encodeSample x) 0 0)
    | some (x, .comma :: ts₁) =>
      match takeSample ts₁ with
      | some (y, []) => some (.enqb 2 (encodeSample x) (encodeSample y) 0)
      | some (y, .comma :: ts₂) =>
        (lastSample ts₂).map fun z => .enqb 3 (encodeSample x) (encodeSample y) (encodeSample z)
      | _ => none
    | _ => none

/-- A command without operands ends its line. -/
def alone (i : Instr) (ts : List Token) : Option Instr := if ts.isEmpty then some i else none

/-- The operands of the command a mnemonic names (R66). -/
def parseOperands : Keyword → List Token → Option Instr
  | .len, ts => alone .len ts
  | .pop, ts => alone .pop ts
  | .drop, ts => alone .drop ts
  | .clr, ts => alone .clr ts
  | .cnt, ts => alone .cnt ts
  | .deq, ts => alone .deq ts
  | .rclr, ts => alone .rclr ts
  | .row, ts => parseRow ts
  | .ovl, ts => parseOvl ts
  | .get, [.num v] => (index? 65536 v).map fun i => .get i.val
  | .set, ts => parseSet ts
  | .enq, ts => (lastSample ts).map fun x => .enq (encodeSample x)
  | .enqb, ts => parseEnqb ts
  | _, _ => none

/-- "One command per line, mnemonic first" (R66). -/
def parse : List Token → Option Instr
  | .key k :: ts => parseOperands k ts
  | _ => none

/-- The command of a line; `some none` is a line without a command. -/
def assembleLine (line : List Char) : Option (Option Instr) :=
  match tokenize [] line with
  | none => none
  | some [] => some none
  | some ts => (parse ts).map some

/-- The lines of a text; the accumulator holds the current line, last character first. -/
def splitLines : List Char → List Char → List (List Char)
  | line, [] => [line.reverse]
  | line, c :: rest => if c == '\n' then line.reverse :: splitLines [] rest else splitLines (c :: line) rest

/-- The commands of the lines of a program. -/
def assembleLines : List (List Char) → Option (List Instr)
  | [] => some []
  | line :: rest =>
    match assembleLine line, assembleLines rest with
    | some none, some is => some is
    | some (some i), some is => some (i :: is)
    | _, _ => none

/-- The commands of a program text. -/
def assemble (text : List Char) : Option (List Instr) := assembleLines (splitLines [] text)

/-! ### Instructions to tokens -/

/-- The tokens of a sample. -/
def sampleTokens (x : Sample) : List Token :=
  [.lbrace, .num x.color.val, .comma, .num x.pal.val, .comma] ++
    (match x.tag with
     | .ordBg => [.key .ord, .rbrace]
     | .bgPrio => [.key .bgp, .rbrace]
     | .sprite o => [.key .spr, .lparen, .num o.val, .rparen, .rbrace])

/-- The tokens of a run of colors. -/
def colorTokens (colors : List ColorIdx) : List Token := colors.map fun c => .num c.val

/-- `[, prio]`. -/
def prioTokens (prio : Bool) : List Token := if prio then [.comma, .key .prio] else []

/-- The sample a word encodes, as tokens; none where the syntax has no form for the word. -/
def wordTokens (smp : SampleWord) : Option (List Token) := (decodeSample smp).map sampleTokens

/-- Token lists with commas between them. -/
def commaSeparated : List (List Token) → List Token
  | [] => []
  | [ts] => ts
  | ts :: rest => ts ++ .comma :: commaSeparated rest

/-- The tokens of a batch's samples. -/
def batchTokens : List SampleWord → Option (List (List Token))
  | [] => some []
  | s :: rest =>
    match wordTokens s, batchTokens rest with
    | some t, some ts => some (t :: ts)
    | _, _ => none

/-- The line of an instruction; none where a sample word is not well-formed, for which R66 has no form. -/
def print : Instr → Option (List Token)
  | .len => some [.key .len]
  | .row colors pal prio =>
    some (.key .row :: colorTokens colors ++ [.comma, .key .pal, .eq, .num pal.val] ++ prioTokens prio)
  | .ovl colors pal prio oam ofs =>
    some (.key .ovl :: colorTokens colors ++ [.comma, .key .ofs, .eq, .num ofs, .comma, .key .pal, .eq, .num pal.val,
      .comma, .key .oam, .eq, .num oam.val] ++ prioTokens prio)
  | .pop => some [.key .pop]
  | .drop => some [.key .drop]
  | .clr => some [.key .clr]
  | .cnt => some [.key .cnt]
  | .get idx => some [.key .get, .num idx]
  | .set idx smp => (wordTokens smp).map fun ts => .key .set :: .num idx :: .comma :: ts
  | .enq smp => (wordTokens smp).map fun ts => .key .enq :: ts
  | .enqb n smp0 smp1 smp2 =>
    (batchTokens (batchWords n smp0 smp1 smp2)).map fun ts => .key .enqb :: commaSeparated ts
  | .deq => some [.key .deq]
  | .rclr => some [.key .rclr]

/-! ### Overlay runs of any length -/

/-- "The driver issues it as several OVL commands with offsets offset - 8m for the m-th group of 8" (R67, D16). -/
def splitRun (colors : List ColorIdx) (pal : PalIdx) (prio : Bool) (oam : OamIdx) (ofs : Int) : List Instr :=
  (List.range ((colors.length + 7) / 8)).map fun m =>
    .ovl (padRun ((colors.drop (8 * m)).take 8)) pal prio oam (ofs - 8 * m)

end Sys2Proof.Asm
end

