-- ==== Sys2Proof/Machine/Ring.lean ====
section
/-! DEFINITION. The physical representation of the queue (R19, D19): `buf`, `head`, `cnt`, and what each command does
to them (the "physical:" comments of `40_ring_buffer.md`). The architectural state holds `Q` and `cap` alone, which
R19 allows since "every rule in this spec is stated so that it is determined by Q and cap"; this file is the
implementation those two abstract, so that "the ring refines the queue" can be stated (log entry 9). -/

namespace Sys2Proof.Machine

open Sys2Proof.Bits

/-- The physical representation of R19; `cap` is the length of `buf`. -/
structure Ring where
  buf : List Sample
  head : Nat
  cnt : Nat
deriving DecidableEq, Repr

/-- The backing capacity. -/
def Ring.cap (r : Ring) : Nat := r.buf.length

/-- "`head` is in [0, cap); `cnt` is in [0, cap]" (R19). -/
def Ring.ok (r : Ring) : Bool := decide (r.head < r.cap) && decide (r.cnt ≤ r.cap)

/-- "Logical offset `i` lives in slot `(head + i) mod cap`" (R19). -/
def Ring.slot (r : Ring) (i : Nat) : Nat := (r.head + i) % r.cap

/-- The sample in the slot of logical offset `i`. -/
def Ring.read (r : Ring) (i : Nat) : Option Sample := r.buf[r.slot i]?

/-- The abstraction function: `Q = [ buf[(head + i) mod cap] | 0 <= i < cnt ]` (R19). -/
def Ring.contents (r : Ring) : List Sample := (List.range r.cnt).filterMap r.read

/-- The ring represents the queue and the capacity of a state. -/
def Ring.Represents (r : Ring) (s : State) : Prop := r.ok = true ∧ r.contents = s.q ∧ r.cap = s.cap

/-- The ring at reset: `cnt = 0`, `head = 0`, slot contents unspecified (R31), so taken from `fresh`. -/
def Ring.atReset (initCap : Nat) (fresh : Nat → Sample) : Ring :=
  { buf := (List.range initCap).map fresh, head := 0, cnt := 0 }

/-- `buf[(head + i) mod cap] <- x` (R71). -/
def Ring.write (r : Ring) (i : Nat) (x : Sample) : Ring := { r with buf := r.buf.set (r.slot i) x }

/-- `buf[(head + cnt) mod cap] <- x, cnt <- cnt + 1` (R72). -/
def Ring.push (r : Ring) (x : Sample) : Ring :=
  { r with buf := r.buf.set (r.slot r.cnt) x, cnt := r.cnt + 1 }

/-- `head <- (head + 1) mod cap, cnt <- cnt - 1` (R74). -/
def Ring.pop (r : Ring) : Ring := { r with head := (r.head + 1) % r.cap, cnt := r.cnt - 1 }

/-- `cnt <- 0, head <- 0` (R75). -/
def Ring.clear (r : Ring) : Ring := { r with head := 0, cnt := 0 }

/-- "newbuf[k] <- buf[(head + k) mod oldcap] for 0 <= k < cnt ; head <- 0" (R68). The slots a growth allocates
are unspecified (R29), so taken from `fresh`. -/
def Ring.relocate (r : Ring) (newcap : Nat) (fresh : Nat → Sample) : Ring :=
  { buf := (List.range newcap).map fun k => if k < r.cnt then (r.read k).getD (fresh k) else fresh k
    head := 0
    cnt := r.cnt }

/-- `Grow(n)` on the ring (R68). -/
def Ring.grow (maxCap n : Nat) (fresh : Nat → Sample) (r : Ring) : Option Ring :=
  if r.cnt + n ≤ r.cap then some r
  else if nextPow2 (r.cnt + n) ≤ maxCap then some (r.relocate (nextPow2 (r.cnt + n)) fresh)
  else none

/-- `Grow`, then one push per sample; a capacity fault leaves the ring alone (R38, R68). -/
def Ring.appendBack (maxCap : Nat) (fresh : Nat → Sample) (xs : List Sample) (r : Ring) : Ring :=
  match r.grow maxCap xs.length fresh with
  | none => r
  | some g => xs.foldl Ring.push g

/-- The lane loop of OVL on the ring: each lane reads and writes the slot of its target (R81). -/
def Ring.overlay (start : Int) (bgEn : Bool) (pal : PalIdx) (sprPrio : Bool) (oam : OamIdx) (ofs : Int) :
    Nat → List ColorIdx → Ring → Ring
  | _, [], r => r
  | j, c :: rest, r =>
    if (j : Int) < start || c == 0 then r.overlay start bgEn pal sprPrio oam ofs (j + 1) rest
    else if 0 ≤ (j : Int) - ofs ∧ (j : Int) - ofs < r.cnt then
      match r.read (j - ofs).toNat with
      | none => r
      | some old =>
        Ring.overlay start bgEn pal sprPrio oam ofs (j + 1) rest
          (if mux old bgEn sprPrio oam then
            r.write (j - ofs).toNat { color := c, pal := pal, tag := .sprite oam }
          else r)
    else r

/-- What a command that raises no fault does to the ring. -/
def Ring.command (p : Params) (bgEn : Bool) (fresh : Nat → Sample) (i : Instr) (r : Ring) : Ring :=
  match i with
  | .len => r
  | .row colors pal prio => r.appendBack p.maxCap fresh (rowSamples colors pal prio)
  | .ovl colors pal prio oam ofs => r.overlay (firstLane p.ovlStart ofs) bgEn pal prio oam ofs 0 colors
  | .pop => r.pop
  | .drop => r.pop
  | .clr => r.clear
  | .cnt => r
  | .get _ => r
  | .set idx smp =>
    match decodeSample smp with
    | none => r
    | some x => r.write idx x
  | .enq smp =>
    match decodeSample smp with
    | none => r
    | some x => r.appendBack p.maxCap fresh [x]
  | .enqb n smp0 smp1 smp2 =>
    match decodeSamples 0 (batchWords n smp0 smp1 smp2) with
    | .error _ => r
    | .ok xs => r.appendBack p.maxCap fresh xs
  | .deq => r.pop
  | .rclr => r.clear

end Sys2Proof.Machine
end

