-- ==== Sys2Proof/Safety.lean ====
section
/-! DEFINITION. What counts as a safe run, in the terms the statements use: the invariant of the block (R16, R18,
R21, R65), a run of commands, the driver's duties (R105 to R108), and what a command appends and removes (R76). -/

namespace Sys2Proof.Safety

open Sys2Proof.Bits Sys2Proof.Machine

/-- The block is in service: "A claim takes FSTAT.FAULT = 0 at the end as a premise" (R87). -/
abbrev InService (s : State) : Prop := s.halted = false

/-! ### The invariant -/

/-- A value is of the parameter type `Color` (R7). -/
abbrev IsColor (p : Params) (c : Color) : Prop := isColor p c = true

/-- RSTAT is one of 0 to 5 and 7, and RDATA is 0 unless RSTAT = 0 (R65, U15). -/
def ResponseLegal : Option Response → Prop
  | none => True
  | some r => (r.rstat.toNat ≤ 5 ∨ r.rstat = rstatHalted) ∧ (r.rstat = rstatOk ∨ r.rdata = 0)

/-- Every register of the environment's bank, and its last answer, fits in REG_W bits (R46). -/
def BankFits (p : Params) (b : RegBank) : Prop :=
  (∀ r ∈ b.registers, r.value < 2 ^ p.regW) ∧ ∀ v, b.readData = some v → v < 2 ^ p.regW

/-- The invariant that every step keeps. -/
structure Inv (s : State) : Prop where
  /-- The parameters are legal (R7). -/
  params : s.cfg.legal = true
  /-- "`cap` is a power of two" (R18). -/
  capPow2 : isPow2 s.cap = true
  /-- "`|Q| <= cap`" (R18). -/
  countLeCap : s.q.length ≤ s.cap
  /-- "`cap <= MAX_CAP`" (R18). -/
  capLeMax : s.cap ≤ s.cfg.maxCap
  /-- "`cap >= INIT_CAP`" (R18). -/
  initLeCap : s.cfg.initCap ≤ s.cap
  /-- FSTAT holds a legal value (R21). -/
  status : FStat.legal s.fstat = true
  /-- The fault registers hold their reset value until a fault (R21 to R23). -/
  unfaulted : s.halted = false → s.fstat = 0 ∧ s.findex = 0 ∧ s.fcount = 0
  /-- The response is one the block drives (R65). -/
  response : ResponseLegal s.resp
  /-- The entries of both palette banks are colors (R26). -/
  palettes : (∀ c ∈ s.inputs.bgPal, IsColor s.cfg c) ∧ ∀ c ∈ s.inputs.objPal, IsColor s.cfg c
  /-- The surrounding subsystem drives colors only (R26). -/
  driven : ∀ bank pal color c, .drivePal bank pal color c ∈ s.inbox → IsColor s.cfg c
  /-- What the sink received are colors (R27). -/
  sink : ∀ c ∈ s.sinkOut, IsColor s.cfg c
  /-- The environment's bank holds values of its width (R46). -/
  bank : BankFits s.cfg s.bank

/-! ### Runs -/

/-- Run commands one after another, each on the state the one before it left (R40). -/
def runCommands : List Instr → State → Result
  | [], s => .next s
  | i :: rest, s =>
    match exec i s with
    | .next t => runCommands rest t
    | .fault r => .fault r
    | .refused r => .refused r

/-- `n` steps of the machine. -/
def runSteps (n : Nat) (s : State) : Result := Sys2Proof.core.run n s

/-! ### The driver's duties -/

/-- Lane `j` of an overlay is examined and not transparent (R81). -/
def laneShows (start : Int) (colors : List ColorIdx) (j : Nat) : Bool :=
  decide (start ≤ (j : Int)) && colors.getD j 0 != 0

/-- A queue index is valid (R17, R34). -/
def validIndex (q : List Sample) (i : Int) : Bool := decide (0 ≤ i) && decide (i < q.length)

/-- "Every nonzero lane must target an existing sample" (R107), under either `OVL_START`. -/
def targetsExist (start : Int) (colors : List ColorIdx) (ofs : Int) (q : List Sample) : Bool :=
  (List.range colors.length).all fun j => !laneShows start colors j || validIndex q (j - ofs)

/-- An insert of `n` samples fits (R68). -/
def fits (n : Nat) (s : State) : Bool :=
  decide (s.q.length + n ≤ s.cap) || decide (nextPow2 (s.q.length + n) ≤ s.cfg.maxCap)

/-- What the host owes a command so that it raises no fault (R105 to R108, R90, R93). -/
def duty (i : Instr) (s : State) : Bool :=
  match i with
  | .len => true
  | .row colors _ _ => fits colors.length s
  | .ovl colors _ _ _ ofs => targetsExist (firstLane s.cfg.ovlStart ofs) colors ofs s.q
  | .pop => !s.q.isEmpty
  | .drop => !s.q.isEmpty
  | .clr => true
  | .cnt => true
  | .get idx => validIndex s.q idx
  | .set idx smp => sampleWellFormed smp && validIndex s.q idx
  | .enq smp => sampleWellFormed smp && fits 1 s
  | .enqb n smp0 smp1 smp2 => (batchWords n smp0 smp1 smp2).all sampleWellFormed && fits n.val s
  | .deq => !s.q.isEmpty
  | .rclr => true

/-- The draining half of the cycle of R105: POP or DROP, then the closing CLR. -/
def drains : List Instr → Bool
  | [.clr] => true
  | .pop :: rest => drains rest
  | .drop :: rest => drains rest
  | _ => false

/-- The filling half of the cycle of R105: ROW and OVL interleaved, then the draining half. -/
def fills : List Instr → Bool
  | .row _ _ _ :: rest => fills rest
  | .ovl _ _ _ _ _ :: rest => fills rest
  | rest => drains rest

/-- "clear -> (fetch, enqueue)* interleaved with (sprite-evaluate, overlay)* -> (pop-and-resolve)* -> clear" (R105). -/
def driverCycle : List Instr → Bool
  | .clr :: rest => fills rest
  | _ => false

/-! ### What a command appends and removes (R76) -/

/-- The samples a command that raises no fault appends at the back. -/
def appended : Instr → List Sample
  | .row colors pal prio => rowSamples colors pal prio
  | .enq smp => (decodeSample smp).toList
  | .enqb n smp0 smp1 smp2 => (batchWords n smp0 smp1 smp2).filterMap decodeSample
  | .len => []
  | .ovl _ _ _ _ _ => []
  | .pop => []
  | .drop => []
  | .clr => []
  | .cnt => []
  | .get _ => []
  | .set _ _ => []
  | .deq => []
  | .rclr => []

/-- How many samples a command that raises no fault removes from the front. -/
def removed : Instr → Nat
  | .pop => 1
  | .drop => 1
  | .deq => 1
  | .len => 0
  | .row _ _ _ => 0
  | .ovl _ _ _ _ _ => 0
  | .clr => 0
  | .cnt => 0
  | .get _ => 0
  | .set _ _ => 0
  | .enq _ => 0
  | .enqb _ _ _ _ => 0
  | .rclr => 0

/-- Every command but those that replace in place (SET, OVL) and those that empty the queue (CLR, RCLR). -/
def movesInOrder : Instr → Bool
  | .set _ _ => false
  | .ovl _ _ _ _ _ => false
  | .clr => false
  | .rclr => false
  | .len => true
  | .row _ _ _ => true
  | .pop => true
  | .drop => true
  | .cnt => true
  | .get _ => true
  | .enq _ => true
  | .enqb _ _ _ _ => true
  | .deq => true

/-- The number of POP commands in a list. -/
def popCount (is : List Instr) : Nat := is.countP (fun i => i == .pop)

end Sys2Proof.Safety
end

