-- ==== Sys2Proof/Certificates/Slice0/Obligations.lean ====
section
/-! DEFINITION. The statements about the model, for the provers. Their words and citations are in OBLIGATIONS.json.
Statements about commands are written as equations of whole states wherever the spec fixes the whole state, so that
such a statement is its command's frame as well: whatever the equation does not name is unchanged. -/

namespace Sys2Proof.Claims

open Sys2Proof.Bits Sys2Proof.Machine Sys2Proof.Safety

/-- `respond(OK, data)` and nothing else (R12, R65). -/
def answered (s : State) (data : Data) : State := { s with resp := some { rstat := 0, rdata := data } }

/-- `FSTAT <- {0b0000, cmd[3:0], l[2:0], f[3:0], 0b1}`, FINDEX, FCOUNT and the response of R95, and nothing else. -/
def faultEntry (s : State) (op code lane : Nat) (info : Data) : State :=
  { s with
    fstat := BitVec.ofNat 16 (256 * op + 32 * lane + 2 * code + 1)
    findex := info
    fcount := BitVec.ofNat 32 s.q.length
    resp := some { rstat := BitVec.ofNat 4 code, rdata := 0 } }

/-- `nextPow2` as R9 describes it: `c` is the least power of two with `n <= c`. -/
def IsNextPow2 (n c : Nat) : Prop := (∃ k, c = 2 ^ k) ∧ n ≤ c ∧ ∀ k, n ≤ 2 ^ k → c ≤ 2 ^ k

/-- The capacity `Grow(n)` leaves where it raises nothing (R68). -/
def Grown (s : State) (n c : Nat) : Prop :=
  (s.q.length + n ≤ s.cap ∧ c = s.cap) ∨ (s.cap < s.q.length + n ∧ IsNextPow2 (s.q.length + n) c)

/-- `Q <- Q ++ xs` under capacity `c`, answered OK. -/
def appendedWith (s : State) (xs : List Sample) (c : Nat) : State :=
  answered { s with q := s.q ++ xs, cap := c } 0

/-- Lane `j` is examined and not transparent (R81). -/
def Shows (s : State) (colors : List ColorIdx) (ofs : Int) (j : Nat) : Prop :=
  firstLane s.cfg.ovlStart ofs ≤ (j : Int) ∧ colors.getD j 0 ≠ 0

/-- Lane `j` targets an existing sample (R107). -/
def Targets (s : State) (ofs : Int) (j : Nat) : Prop := 0 ≤ (j : Int) - ofs ∧ (j : Int) - ofs < s.q.length

/-- `Q` after an overlay that raises no fault, position by position: position `k` is the target of lane `k + ofs`,
and is replaced when that lane shows and the mux replaces (R81, R82). -/
def overlaid (s : State) (colors : List ColorIdx) (pal : PalIdx) (prio : Bool) (oam : OamIdx) (ofs : Int) :
    List Sample :=
  s.q.mapIdx fun k old =>
    if 0 ≤ (k : Int) + ofs ∧ firstLane s.cfg.ovlStart ofs ≤ (k : Int) + ofs
        ∧ colors.getD ((k : Int) + ofs).toNat 0 ≠ 0 ∧ mux old s.inputs.bgEn prio oam = true then
      { color := colors.getD ((k : Int) + ofs).toNat 0, pal := pal, tag := .sprite oam }
    else old

/-- What one sprite pixel leaves at a position holding `old` (R79, R81). -/
def painted (old : Sample) (bgEn : Bool) (color : ColorIdx) (pal : PalIdx) (prio : Bool) (oam : OamIdx) : Sample :=
  if mux old bgEn prio oam then { color := color, pal := pal, tag := .sprite oam } else old

/-- A command word whose low four bits are `op` decodes to `i` where its bits [63:4] are 0, and is illegal
otherwise (R51). -/
def DecodesWithoutOperands (op : Nat) (i : Instr) : Prop :=
  ∀ w : Cmd, slice w.toNat 3 0 = op →
    decode w = if slice w.toNat 63 4 = 0 then .ok i else .error .reservedBits

/-- The mnemonic of R62's opcode map. -/
def mnemonic : Instr → String
  | .len => "LEN"
  | .row _ _ _ => "ROW"
  | .ovl _ _ _ _ _ => "OVL"
  | .pop => "POP"
  | .drop => "DROP"
  | .clr => "CLR"
  | .cnt => "CNT"
  | .get _ => "GET"
  | .set _ _ => "SET"
  | .enq _ => "ENQ"
  | .enqb _ _ _ _ => "ENQB"
  | .deq => "DEQ"
  | .rclr => "RCLR"

/-- The sample words a command carries, by slot (R55 to R57). -/
def sampleWords : Instr → List SampleWord
  | .set _ smp => [smp]
  | .enq smp => [smp]
  | .enqb n smp0 smp1 smp2 => [smp0, smp1, smp2].take n.val
  | _ => []

/-- The queue index a command accesses: that of GET and SET, and the target of an overlay's lane (R34, R81). -/
def accesses (i : Instr) (lane : Nat) : Option Int :=
  match i with
  | .get idx => if lane = 0 then some idx else none
  | .set idx _ => if lane = 0 then some idx else none
  | .ovl _ _ _ _ ofs => some ((lane : Int) - ofs)
  | _ => none

/-- The commands that insert samples: ROW, ENQ and ENQB. -/
def inserts : Instr → Bool
  | .row _ _ _ => true
  | .enq _ => true
  | .enqb _ _ _ _ => true
  | _ => false

/-- The state with another enable flag. -/
def withBgEn (b : Bool) (s : State) : State := { s with inputs := { s.inputs with bgEn := b } }

/-- The state with other palette banks. -/
def withPalettes (bg obj : Bank) (s : State) : State := { s with inputs := { s.inputs with bgPal := bg, objPal := obj } }

/-- The state with every color renamed by `f`, under another color type, encoding and width. -/
def withColors (f : Color → Color) (type : ColorType) (width : Nat) (s : State) : State :=
  { s with
    cfg := { s.cfg with color := type, colorW := width }
    sinkOut := s.sinkOut.map f
    inputs := { s.inputs with bgPal := s.inputs.bgPal.map f, objPal := s.inputs.objPal.map f } }

/-- The next event of the host's stream. -/
def nextEvent (s : State) : Option PortEvent := s.inbox.head?

end Sys2Proof.Claims

open Sys2Proof Sys2Proof.Bits Sys2Proof.Machine Sys2Proof.Safety Sys2Proof.Claims

/-! ### Reset and the invariant -/

/-- R31, R102: a reset event leaves every piece of the block's own state at its reset value; the inputs are
whatever is driven. That the parameters, the rest of the command stream and the environment's bank are kept is the
model's choice: they are not the block's (log entries 1, 3, 12, 15). -/
def Obligations.ResetGivesTheResetValues : Prop :=
  ∀ (s : State) (rest : List PortEvent), s.inbox = .reset :: rest →
    ∃ t, step s = .next t ∧ t.q = [] ∧ t.cap = s.cfg.initCap ∧ t.fstat = 0 ∧ t.findex = 0 ∧ t.fcount = 0
      ∧ t.capO = BitVec.ofNat 16 s.cfg.initCap ∧ t.faultO = false ∧ t.sinkOut = [] ∧ t.resp = none
      ∧ t.inputs = s.inputs ∧ t.cfg = s.cfg ∧ t.inbox = rest ∧ t.bank = s.bank

/-- The reset state meets the invariant, for every legal choice of parameters and every input of colors
of the parameter type, and under the defaults (log entries 4 and 6). -/
def Obligations.ResetMeetsTheInvariant : Prop :=
  (∀ (p : Params) (inputs : Inputs), p.legal = true →
    (∀ c ∈ inputs.bgPal, IsColor p c) → (∀ c ∈ inputs.objPal, IsColor p c) →
    Inv (State.resetWith p inputs)) ∧ Inv State.reset

/-- R16, R18, R21, R65: the invariant is kept by every step from every state that meets it. -/
def Obligations.EveryStepKeepsTheInvariant : Prop :=
  ∀ s t : State, Inv s → step s = .next t → Inv t

/-- R18: the bounds of `cap` after a step; `cap` never decreases but by a reset; only an insert changes it. -/
def Obligations.CapacityStaysAPowerOfTwoAndNeverShrinks : Prop :=
  ∀ s t : State, Inv s → step s = .next t →
    (t.q.length ≤ t.cap ∧ t.cap ≤ t.cfg.maxCap ∧ (∃ k, t.cap = 2 ^ k) ∧ t.cfg.initCap ≤ t.cap)
    ∧ (nextEvent s ≠ some .reset → s.cap ≤ t.cap
        ∧ (t.cap ≠ s.cap →
            ∃ w i, nextEvent s = some (.command w) ∧ decode w = .ok i ∧ inserts i = true))

/-- R24: CAP_O equals `cap`, which fits in its 16 bits, in every state that meets the invariant. -/
def Obligations.CapacityOutputEqualsTheCapacity : Prop :=
  (∀ s : State, Inv s → s.capO.toNat = s.cap) ∧
    ∀ (p : Params) (inputs : Inputs), p.legal = true → (State.resetWith p inputs).capO.toNat = p.initCap

/-! ### Encoding -/

/-- R49 to R59: no bit of an operand is lost between the encoder and the decoder. -/
def Obligations.DecodingAnEncodedCommandGivesItBack : Prop :=
  ∀ i : Instr, i.wellFormed = true → decode (encode i) = .ok i

/-- R64: each word has one meaning: what decodes is well formed, and encodes back to the same word. -/
def Obligations.EncodingADecodedWordGivesItBack : Prop :=
  ∀ (w : Cmd) (i : Instr), decode w = .ok i → i.wellFormed = true ∧ encode i = w

/-- R62: a word decodes to a command exactly when it selects that command's row of the match and mask table, and,
for ENQB, when every slot `SMPk` with `k >= N` is 0. No word selects two rows. -/
def Obligations.DecodingFollowsTheMatchAndMaskTable : Prop :=
  (∀ w : Cmd, (∃ i, decode w = .ok i) ↔
    ∃ r ∈ opcodeRows, w &&& r.mask = r.pattern ∧
      (r.mnemonic = "ENQB" → ∀ k < 3, slice w.toNat 57 56 ≤ k → slice w.toNat (23 + 16 * k) (8 + 16 * k) = 0))
  ∧ (∀ (w : Cmd) (i : Instr), decode w = .ok i →
      ∃ r ∈ opcodeRows, w &&& r.mask = r.pattern ∧ r.mnemonic = mnemonic i)
  ∧ ∀ w : Cmd, ∀ r₁ ∈ opcodeRows, ∀ r₂ ∈ opcodeRows,
      w &&& r₁.mask = r₁.pattern → w &&& r₂.mask = r₂.pattern → r₁ = r₂

/-- R63: a word is illegal when its opcode is reserved, or a bit its format marks 0 is 1, or an unused ENQB slot is
nonzero, and in no other case; executing it raises ILLEGAL_CMD. -/
def Obligations.AWordIsIllegalExactlyInTheThreeCases : Prop :=
  (∀ w : Cmd, (∃ e, decode w = .error e) ↔
    (slice w.toNat 3 0 = 0x0 ∨ slice w.toNat 3 0 = 0x7 ∨ slice w.toNat 3 0 = 0xF)
    ∨ (∃ r ∈ opcodeRows, slice r.pattern.toNat 3 0 = slice w.toNat 3 0 ∧ w &&& (r.mask &&& ~~~(0xF : Cmd)) ≠ 0)
    ∨ (slice w.toNat 3 0 = 0xC
        ∧ ∃ k < 3, slice w.toNat 57 56 ≤ k ∧ slice w.toNat (23 + 16 * k) (8 + 16 * k) ≠ 0))
  ∧ ∀ (w : Cmd) (e : DecodeError) (s : State), decode w = .error e → InService s →
      ∃ t, present w s = .next t ∧ t.faultO = true ∧ FStat.fcode t.fstat = 1

/-- R51: the seven commands without operands, each word and each reserved bit. -/
def Obligations.OperandlessCommandsDecodeFromTheirOpcode : Prop :=
  DecodesWithoutOperands 0x1 .len ∧ DecodesWithoutOperands 0x4 .pop ∧ DecodesWithoutOperands 0x5 .drop
    ∧ DecodesWithoutOperands 0x6 .clr ∧ DecodesWithoutOperands 0x8 .cnt ∧ DecodesWithoutOperands 0xD .deq
    ∧ DecodesWithoutOperands 0xE .rclr

/-- Words written out in the spec (R58, R61, R66, R70 to R73, R81) decode to the commands the spec gives them. -/
def Obligations.WordsOfTheSpecDecodeAsTheSpecSays : Prop :=
  decode 0x0000000000393902 = .ok (.row [1, 2, 3, 0, 1, 2, 3, 0] 0 false)
    ∧ decode 0x000000001500F003 = .ok (.ovl [0, 0, 3, 3, 0, 0, 0, 0] 5 false 1 0)
    ∧ decode 0x0008000FFF000103 = .ok (.ovl [1, 0, 0, 0, 0, 0, 0, 0] 7 true 255 (-32768))
    ∧ decode 0x0000000000000209 = .ok (.get 2)
    ∧ decode 0x00000000D700010A = .ok (.set 1 0x00D7)
    ∧ decode 0x000000000000290B = .ok (.enq 0x0029)
    ∧ decode 0x020000001F00000C = .ok (.enqb 2 0x0000 0x001F 0x0000)
    ∧ decode 0x0000000000000004 = .ok .pop

/-- R60, R61: the layout of a sample word, and that decoding and encoding samples are inverse. -/
def Obligations.SampleWordsCarryEverySample : Prop :=
  (∀ x : Sample, slice (encodeSample x).toNat 1 0 = x.color.val ∧ slice (encodeSample x).toNat 4 2 = x.pal.val
    ∧ slice (encodeSample x).toNat 6 5 = (match x.tag with | .ordBg => 0 | .bgPrio => 1 | .sprite _ => 2)
    ∧ slice (encodeSample x).toNat 14 7 = (match x.tag with | .sprite o => o.val | _ => 0)
    ∧ slice (encodeSample x).toNat 15 15 = 0)
  ∧ (∀ x : Sample, decodeSample (encodeSample x) = some x)
  ∧ (∀ (s : SampleWord) (x : Sample), decodeSample s = some x → encodeSample x = s)
  ∧ ∀ s : SampleWord, (∃ x, decodeSample s = some x) ↔
      slice s.toNat 6 5 ≠ 3 ∧ slice s.toNat 15 15 = 0 ∧ (slice s.toNat 6 5 = 2 ∨ slice s.toNat 14 7 = 0)

/-- R66: the parser reads back every line the printer writes, for every command that has a line. -/
def Obligations.ParsingAPrintedLineGivesTheCommandBack : Prop :=
  ∀ (i : Instr) (ts : List Asm.Token), i.wellFormed = true → Asm.print i = some ts → Asm.parse ts = some i

/-! ### The port and the step -/

/-- The next command word of the stream runs: `step` is `exec` of the decoded command at the state without that
event; and `withFetchWord` puts a word there. The stream as a list in State is the model's form (log entry 3). -/
def Obligations.AStepRunsTheDecodedCommand : Prop :=
  (∀ (s : State) (w : Cmd) (rest : List PortEvent) (i : Instr),
    s.inbox = .command w :: rest → decode w = .ok i → step s = exec i { s with inbox := rest })
  ∧ ∀ (s : State) (w : Nat) (i : Instr),
      decode (BitVec.ofNat 64 w) = .ok i → step (s.withFetchWord 64 w) = exec i s

/-- R40: the commands of the stream take effect one at a time in the order issued, each seeing the effect of the
earlier ones. -/
def Obligations.CommandsTakeEffectInTheOrderIssued : Prop :=
  ∀ (is : List Instr) (s : State), (∀ i ∈ is, i.wellFormed = true) → s.inbox = [] →
    runSteps is.length { s with inbox := is.map fun i => .command (encode i) } = runCommands is s

/-- R87: the four outcomes: OK, a fault, a halted refusal, and the model's refusal of concurrent issue. -/
def Obligations.EveryPresentedCommandHasOneOfFourOutcomes : Prop :=
  (∀ (w : Cmd) (s : State), ∃ t r, present w s = .next t ∧ t.resp = some r ∧
    ((s.halted = false ∧ t.halted = false ∧ r.rstat = 0)
      ∨ (s.halted = false ∧ t.halted = true ∧ 1 ≤ r.rstat.toNat ∧ r.rstat.toNat ≤ 5
          ∧ r.rstat.toNat = FStat.fcode t.fstat ∧ r.rdata = 0)
      ∨ (s.halted = true ∧ t = { s with resp := some { rstat := 7, rdata := 0 } })))
  ∧ ∀ (s : State) (w₁ w₂ : Cmd) (rest : List PortEvent), s.inbox = .concurrent w₁ w₂ :: rest →
      step s = .refused .concurrentIssue

/-- R26, R42, R110: a change of an input between two commands changes that input and nothing else, and no event but
such a change, so no command, changes an input. That one event drives `bg_en` or one entry of a bank is the model's
choice of form (log entry 17, DESIGN CHOICE). R110 says only that the host must not change an input during a command:
that the model refuses such a run is DEDUCED from U9 (log entry 11). -/
def Obligations.InputsChangeOnlyBetweenCommands : Prop :=
  (∀ (s : State) (b : Bool) (rest : List PortEvent), s.inbox = .driveBgEn b :: rest →
    step s = .next { s with inbox := rest, inputs := { s.inputs with bgEn := b } })
  ∧ (∀ (s : State) (p : PalIdx) (k : ColorIdx) (c : Color) (rest : List PortEvent),
      s.inbox = .drivePal .bg p k c :: rest →
      ∃ b, step s = .next { s with inbox := rest, inputs := { s.inputs with bgPal := b } } ∧ bankEntry b p k = c
        ∧ ∀ p' k', (p', k') ≠ (p, k) → bankEntry b p' k' = bankEntry s.inputs.bgPal p' k')
  ∧ (∀ (s : State) (p : PalIdx) (k : ColorIdx) (c : Color) (rest : List PortEvent),
      s.inbox = .drivePal .obj p k c :: rest →
      ∃ b, step s = .next { s with inbox := rest, inputs := { s.inputs with objPal := b } } ∧ bankEntry b p k = c
        ∧ ∀ p' k', (p', k') ≠ (p, k) → bankEntry b p' k' = bankEntry s.inputs.objPal p' k')
  ∧ (∀ s t : State, step s = .next t → t.inputs ≠ s.inputs →
      (∃ b, nextEvent s = some (.driveBgEn b)) ∨ ∃ bank p k c, nextEvent s = some (.drivePal bank p k c))
  ∧ ∀ (s : State) (w : Cmd) (rest : List PortEvent), s.inbox = .unstable w :: rest →
      step s = .refused .unstableInputs

/-! ### Faults -/

/-- R95: what a faulting command records and what state it leaves, with the information R22 gives each code. -/
def Obligations.FaultEntryRecordsTheFaultAndKeepsTheRest : Prop :=
  ∀ (w : Cmd) (s t : State), InService s → present w s = .next t → t.halted = true →
    FStat.fault t.fstat = true ∧ FStat.fop t.fstat = slice w.toNat 3 0 ∧ FStat.reserved t.fstat = 0
    ∧ t.resp = some { rstat := BitVec.ofNat 4 (FStat.fcode t.fstat), rdata := 0 }
    ∧ t.fcount = BitVec.ofNat 32 s.q.length ∧ t.faultO = true
    ∧ t.cap = s.cap ∧ t.q.length = s.q.length ∧ t.sinkOut = s.sinkOut ∧ t.inputs = s.inputs
    ∧ (FStat.fop t.fstat ≠ 0x3 ∨ FStat.fcode t.fstat ≠ 3 → t.q = s.q)
    ∧ (FStat.fcode t.fstat = 1 ∧ (∃ e, decode w = .error e) ∧ t.findex = w.setWidth 32 ∧ FStat.flane t.fstat = 0
      ∨ ∃ i, decode w = .ok i ∧
        (FStat.fcode t.fstat = 2 ∧ (∃ smp : SampleWord, (sampleWords i)[FStat.flane t.fstat]? = some smp
            ∧ decodeSample smp = none ∧ t.findex = smp.setWidth 32)
        ∨ FStat.fcode t.fstat = 3 ∧ (∃ k : Int, accesses i (FStat.flane t.fstat) = some k
            ∧ ¬(0 ≤ k ∧ k < s.q.length) ∧ t.findex = BitVec.ofInt 32 k)
        ∨ FStat.fcode t.fstat = 4 ∧ s.q = [] ∧ t.findex = 0 ∧ FStat.flane t.fstat = 0
        ∨ FStat.fcode t.fstat = 5 ∧ FStat.flane t.fstat = 0
            ∧ t.findex = BitVec.ofNat 32 (s.q.length + (appended i).length)))

/-- R96: a halted block refuses every command word, legal or not, with RSTAT = 7 and no effect. -/
def Obligations.AHaltedBlockRefusesEveryCommand : Prop :=
  (∀ (s : State) (w : Cmd) (rest : List PortEvent), s.halted = true → s.inbox = .command w :: rest →
    step s = .next { s with inbox := rest, resp := some { rstat := 7, rdata := 0 } })
  ∧ ∀ (i : Instr) (s : State), s.halted = true → exec i s = .next { s with resp := some { rstat := 7, rdata := 0 } }

/-- R97: no event but reset clears a recorded fault; reset returns the block to service. -/
def Obligations.OnlyResetReturnsToService : Prop :=
  ∀ s t : State, s.halted = true → step s = .next t →
    (nextEvent s ≠ some .reset →
      t.halted = true ∧ t.fstat = s.fstat ∧ t.findex = s.findex ∧ t.fcount = s.fcount ∧ t.q = s.q ∧ t.cap = s.cap
        ∧ t.sinkOut = s.sinkOut)
    ∧ (nextEvent s = some .reset → t.halted = false ∧ t.fstat = 0 ∧ t.findex = 0 ∧ t.fcount = 0)

/-- R89: ILLEGAL_CMD. -/
def Obligations.AnIllegalWordRaisesIllegalCmd : Prop :=
  ∀ (w : Cmd) (e : DecodeError) (s : State), InService s → decode w = .error e →
    present w s = .next (faultEntry s (slice w.toNat 3 0) 1 0 (BitVec.ofNat 32 (slice w.toNat 31 0)))

/-- R90: ILLEGAL_SAMPLE, from SET, ENQ and the lowest ill-formed slot of ENQB. -/
def Obligations.AnIllFormedSampleRaisesIllegalSample : Prop :=
  (∀ (idx : Nat) (smp : SampleWord) (s : State), InService s → decodeSample smp = none →
    exec (.set idx smp) s = .next (faultEntry s 0xA 2 0 (smp.setWidth 32)))
  ∧ (∀ (smp : SampleWord) (s : State), InService s → decodeSample smp = none →
      exec (.enq smp) s = .next (faultEntry s 0xB 2 0 (smp.setWidth 32)))
  ∧ ∀ (n : Fin 4) (smp0 smp1 smp2 : SampleWord) (s : State) (k : Nat) (smp : SampleWord), InService s →
      k < n.val → [smp0, smp1, smp2][k]? = some smp → decodeSample smp = none →
      (∀ k' < k, ∀ smp', [smp0, smp1, smp2][k']? = some smp' → decodeSample smp' ≠ none) →
      exec (.enqb n smp0 smp1 smp2) s = .next (faultEntry s 0xC 2 k (smp.setWidth 32))

/-- R91: OUT_OF_RANGE, from GET, SET and the lowest nonzero lane of OVL whose target does not exist; after an OVL
fault `Q` is not stated beyond its length (R95). -/
def Obligations.AnIndexOutsideTheQueueRaisesOutOfRange : Prop :=
  (∀ (idx : Nat) (s : State), InService s → s.q.length ≤ idx →
    exec (.get idx) s = .next (faultEntry s 0x9 3 0 (BitVec.ofNat 32 idx)))
  ∧ (∀ (idx : Nat) (smp : SampleWord) (x : Sample) (s : State), InService s → decodeSample smp = some x →
      s.q.length ≤ idx → exec (.set idx smp) s = .next (faultEntry s 0xA 3 0 (BitVec.ofNat 32 idx)))
  ∧ ∀ (colors : List ColorIdx) (pal : PalIdx) (prio : Bool) (oam : OamIdx) (ofs : Int) (s : State) (j : Nat),
      InService s → j < colors.length → colors.length ≤ 8 → Shows s colors ofs j → ¬ Targets s ofs j →
      (∀ j' < j, Shows s colors ofs j' → Targets s ofs j') →
      ∃ q f, q.length = s.q.length ∧
        exec (.ovl colors pal prio oam ofs) s
          = .next { faultEntry s 0x3 3 j (BitVec.ofInt 32 ((j : Int) - ofs)) with q := q, free := f }

/-- R92: EMPTY_QUEUE; POP then delivers nothing to the sink. -/
def Obligations.AnEmptyQueueRaisesEmptyQueue : Prop :=
  ∀ s : State, InService s → s.q = [] →
    exec .deq s = .next (faultEntry s 0xD 4 0 0) ∧ exec .pop s = .next (faultEntry s 0x4 4 0 0)
      ∧ exec .drop s = .next (faultEntry s 0x5 4 0 0) ∧ (faultEntry s 0xD 4 0 0).fcount = 0

/-- R93: CAPACITY, exactly when `|Q| + n > MAX_CAP`, from each of the three inserts; `Q` and `cap` unchanged. -/
def Obligations.AnInsertBeyondMaxCapRaisesCapacity : Prop :=
  (∀ (n : Nat) (s : State), Inv s → (grow n s = none ↔ s.cfg.maxCap < s.q.length + n))
  ∧ (∀ (colors : List ColorIdx) (pal : PalIdx) (prio : Bool) (s : State), InService s → Inv s →
      colors.length = 8 → s.cfg.maxCap < s.q.length + 8 →
      exec (.row colors pal prio) s = .next (faultEntry s 0x2 5 0 (BitVec.ofNat 32 (s.q.length + 8))))
  ∧ (∀ (smp : SampleWord) (x : Sample) (s : State), InService s → Inv s → decodeSample smp = some x →
      s.cfg.maxCap < s.q.length + 1 →
      exec (.enq smp) s = .next (faultEntry s 0xB 5 0 (BitVec.ofNat 32 (s.q.length + 1))))
  ∧ ∀ (n : Fin 4) (smp0 smp1 smp2 : SampleWord) (xs : List Sample) (s : State), InService s → Inv s →
      ([smp0, smp1, smp2].take n.val).map decodeSample = xs.map some → s.cfg.maxCap < s.q.length + n.val →
      exec (.enqb n smp0 smp1 smp2) s = .next (faultEntry s 0xC 5 0 (BitVec.ofNat 32 (s.q.length + n.val)))

/-- R105 to R108: a command raises no fault exactly when the host has met its duty toward it. -/
def Obligations.DutiesAreExactlyWhatPreventsFaults : Prop :=
  ∀ (i : Instr) (s : State), InService s → (duty i s = true ↔ ∃ t, exec i s = .next t ∧ InService t)

/-! ### The ring-buffer commands -/

/-- R9, R68: `Grow(n)` keeps enough free capacity, or takes the least power of two that holds the total, or raises
CAPACITY; it changes nothing but `cap`. -/
def Obligations.GrowTakesTheLeastPowerOfTwo : Prop :=
  (∀ (n : Nat) (s : State), s.q.length + n ≤ s.cap → grow n s = some s)
  ∧ (∀ (n c : Nat) (s : State), s.cap < s.q.length + n → IsNextPow2 (s.q.length + n) c →
      grow n s = if c ≤ s.cfg.maxCap then some { s with cap := c } else none)
  ∧ ∀ n : Nat, ∃ c, IsNextPow2 n c

/-- R69, R77: CNT and LEN answer the count and change nothing. -/
def Obligations.CountAndLengthAnswerTheCount : Prop :=
  ∀ s : State, InService s →
    exec .cnt s = .next (answered s (BitVec.ofNat 32 s.q.length))
      ∧ exec .len s = .next (answered s (BitVec.ofNat 32 s.q.length))
      ∧ (Inv s → (BitVec.ofNat 32 s.q.length).toNat = s.q.length)

/-- R70: GET answers the sample at a valid offset and changes nothing. -/
def Obligations.GetAnswersTheSampleAtTheOffset : Prop :=
  ∀ (s : State) (idx : Nat) (h : idx < s.q.length), InService s →
    exec (.get idx) s = .next (answered s ((encodeSample s.q[idx]).setWidth 32))

/-- R71: SET replaces the sample at a valid offset, keeps every other, and a GET of the offset then answers the
word that was set. -/
def Obligations.SetReplacesOneSampleAndGetReadsItBack : Prop :=
  ∀ (s : State) (idx : Nat) (smp : SampleWord) (x : Sample), InService s → decodeSample smp = some x →
    idx < s.q.length →
    ∃ t, exec (.set idx smp) s = .next t ∧ t = answered { s with q := t.q } 0 ∧ t.q.length = s.q.length
      ∧ t.q[idx]? = some x ∧ (∀ k, k ≠ idx → t.q[k]? = s.q[k]?)
      ∧ exec (.get idx) t = .next (answered t (smp.setWidth 32))

/-- R72: ENQ appends one sample, growing first where the buffer is full. -/
def Obligations.EnqueueAppendsOneSample : Prop :=
  ∀ (s : State) (smp : SampleWord) (x : Sample), InService s → s.cfg.legal = true → decodeSample smp = some x →
    s.q.length + 1 ≤ s.cfg.maxCap →
    ∃ c, Grown s 1 c ∧ exec (.enq smp) s = .next (appendedWith s [x] c)

/-- R73: ENQB appends its batch in slot order under a single growth; N = 0 changes nothing. -/
def Obligations.EnqueueBatchAppendsItsSamplesInOrder : Prop :=
  (∀ (s : State) (n : Fin 4) (smp0 smp1 smp2 : SampleWord) (xs : List Sample), InService s → s.cfg.legal = true →
    ([smp0, smp1, smp2].take n.val).map decodeSample = xs.map some → s.q.length + n.val ≤ s.cfg.maxCap →
    ∃ c, Grown s n.val c ∧ exec (.enqb n smp0 smp1 smp2) s = .next (appendedWith s xs c))
  ∧ ∀ (s : State) (smp0 smp1 smp2 : SampleWord), InService s → s.q.length ≤ s.cap →
      exec (.enqb 0 smp0 smp1 smp2) s = .next (answered s 0)

/-- R74: DEQ removes the front sample and answers it. -/
def Obligations.DequeueRemovesAndAnswersTheFront : Prop :=
  ∀ (s : State) (x : Sample) (rest : List Sample), InService s → s.q = x :: rest →
    exec .deq s = .next (answered { s with q := rest } ((encodeSample x).setWidth 32))

/-- R75, R86, R103: CLR and RCLR empty the queue, retain the capacity and touch nothing else. -/
def Obligations.ClearEmptiesTheQueueAndRetainsTheCapacity : Prop :=
  ∀ s : State, InService s →
    exec .rclr s = .next (answered { s with q := [] } 0) ∧ exec .clr s = .next (answered { s with q := [] } 0)

/-- R76: over any fault-free run of commands that neither replace in place nor clear, what is left in the queue is
what stood in it and what was appended, in that order, without the samples removed from the front. -/
def Obligations.SamplesLeaveInTheOrderTheyWereAppended : Prop :=
  ∀ (is : List Instr) (s t : State), (∀ i ∈ is, movesInOrder i = true) → runCommands is s = .next t → InService t →
    (is.map removed).sum ≤ (s.q ++ is.flatMap appended).length
      ∧ t.q = (s.q ++ is.flatMap appended).drop (is.map removed).sum
      ∧ t.q.length + (is.map removed).sum = s.q.length + (is.flatMap appended).length

/-! ### The composer commands -/

/-- R78: ROW appends eight samples left to right, of one palette and one tag. -/
def Obligations.RowAppendsEightSamplesLeftToRight : Prop :=
  ∀ (s : State) (colors : List ColorIdx) (pal : PalIdx) (prio : Bool), InService s → s.cfg.legal = true →
    colors.length = 8 → s.q.length + 8 ≤ s.cfg.maxCap →
    ∃ c xs, Grown s 8 c ∧ exec (.row colors pal prio) s = .next (appendedWith s xs c) ∧ xs.length = 8
      ∧ ∀ (k : Nat) (color : ColorIdx), colors[k]? = some color →
          xs[k]? = some { color := color, pal := pal, tag := if prio then .bgPrio else .ordBg }

/-- R80: the truth table of the priority mux, row by row. -/
def Obligations.TheMuxFollowsItsTruthTable : Prop :=
  ∀ (c : ColorIdx) (p : PalIdx) (bgEn prio : Bool) (o oam : OamIdx),
    mux ⟨c, p, .ordBg⟩ false prio oam = true
    ∧ mux ⟨c, p, .bgPrio⟩ false prio oam = true
    ∧ (c = 0 → mux ⟨c, p, .bgPrio⟩ true prio oam = true)
    ∧ (c ≠ 0 → mux ⟨c, p, .bgPrio⟩ true prio oam = false)
    ∧ mux ⟨c, p, .ordBg⟩ true false oam = true
    ∧ (c = 0 → mux ⟨c, p, .ordBg⟩ true true oam = true)
    ∧ (c ≠ 0 → mux ⟨c, p, .ordBg⟩ true true oam = false)
    ∧ (oam < o → mux ⟨c, p, .sprite o⟩ bgEn prio oam = true)
    ∧ (o ≤ oam → mux ⟨c, p, .sprite o⟩ bgEn prio oam = false)

/-- R81, R82: where every shown lane has a target, OVL replaces exactly the targets the mux replaces, each by its
own lane, and changes nothing else. -/
def Obligations.OverlayReplacesExactlyWhatTheMuxReplaces : Prop :=
  ∀ (s : State) (colors : List ColorIdx) (pal : PalIdx) (prio : Bool) (oam : OamIdx) (ofs : Int), InService s →
    (∀ j < colors.length, Shows s colors ofs j → Targets s ofs j) →
    exec (.ovl colors pal prio oam ofs) s = .next (answered { s with q := overlaid s colors pal prio oam ofs } 0)

/-- R39, R81: an overlay whose colors are all 0 leaves the queue unchanged and cannot fault, whatever its offset. -/
def Obligations.AnAllZeroOverlayChangesNothing : Prop :=
  ∀ (s : State) (colors : List ColorIdx) (pal : PalIdx) (prio : Bool) (oam : OamIdx) (ofs : Int), InService s →
    (∀ c ∈ colors, c = 0) → exec (.ovl colors pal prio oam ofs) s = .next (answered s 0)

/-- R39: SET and OVL are idempotent: repeated with the same operands, they leave the state they left. -/
def Obligations.SetAndOverlayAreIdempotent : Prop :=
  (∀ (s t : State) (idx : Nat) (smp : SampleWord), exec (.set idx smp) s = .next t → InService t →
    exec (.set idx smp) t = .next t)
  ∧ ∀ (s t : State) (colors : List ColorIdx) (pal : PalIdx) (prio : Bool) (oam : OamIdx) (ofs : Int),
      exec (.ovl colors pal prio oam ofs) s = .next t → InService t →
      exec (.ovl colors pal prio oam ofs) t = .next t

/-- R67: an overlay run of any length, split into padded groups of eight at offsets `ofs - 8m`, acts as the one run
would where no lane of the run faults. -/
def Obligations.ASplitOverlayRunActsLikeTheWholeRun : Prop :=
  ∀ (s : State) (colors : List ColorIdx) (pal : PalIdx) (prio : Bool) (oam : OamIdx) (ofs : Int), InService s →
    (∀ j < colors.length, Shows s colors ofs j → Targets s ofs j) →
    ∃ t, runCommands (Asm.splitRun colors pal prio oam ofs) s = .next t
      ∧ t = { s with q := overlaid s colors pal prio oam ofs, resp := t.resp }
      ∧ (colors ≠ [] → t.resp = some { rstat := 0, rdata := 0 }) ∧ (colors = [] → t = s)

/-- R107: two sprite pixels of different ranks, both accepted against a background sample, leave the same sample in
either order, that of the lower rank. -/
def Obligations.TheLowerRankShowsInEitherOrder : Prop :=
  ∀ (old : Sample) (bgEn : Bool) (c₁ c₂ : ColorIdx) (p₁ p₂ : PalIdx) (prio₁ prio₂ : Bool) (o₁ o₂ : OamIdx),
    (old.tag = .ordBg ∨ old.tag = .bgPrio) → mux old bgEn prio₁ o₁ = true → mux old bgEn prio₂ o₂ = true →
    o₁ < o₂ →
    painted (painted old bgEn c₁ p₁ prio₁ o₁) bgEn c₂ p₂ prio₂ o₂ = { color := c₁, pal := p₁, tag := .sprite o₁ }
      ∧ painted (painted old bgEn c₂ p₂ prio₂ o₂) bgEn c₁ p₁ prio₁ o₁
          = { color := c₁, pal := p₁, tag := .sprite o₁ }

/-- R83: the tag alone selects the bank. -/
def Obligations.TheArbiterSelectsTheBankByTheTag : Prop :=
  ∀ (inputs : Inputs) (c : ColorIdx) (p : PalIdx) (o : OamIdx),
    arbitrate inputs ⟨c, p, .sprite o⟩ = bankEntry inputs.objPal p c
      ∧ arbitrate inputs ⟨c, p, .ordBg⟩ = bankEntry inputs.bgPal p c
      ∧ arbitrate inputs ⟨c, p, .bgPrio⟩ = bankEntry inputs.bgPal p c

/-- R65, R84: POP removes the front sample, sends its color to the sink and answers the color's bits: COLOR_W bits,
whatever the parameter `colorBits`; the color itself under the default type, the given entry under a given encoding.
That a type is given as numbers and an encoding as a list is the model's form (log entry 5). -/
def Obligations.PopSendsTheResolvedColorToTheSink : Prop :=
  (∀ (s : State) (x : Sample) (rest : List Sample), InService s → s.q = x :: rest →
    exec .pop s = .next (answered { s with q := rest, sinkOut := s.sinkOut ++ [arbitrate s.inputs x] }
      (colorBits s.cfg (arbitrate s.inputs x))))
  ∧ ∀ (p : Params) (c : Color), p.legal = true →
      (colorBits p c).toNat < 2 ^ p.colorW
      ∧ (p.color = .unsigned → c < 2 ^ p.colorW → (colorBits p c).toNat = c)
      ∧ ∀ bits b, p.color = .table bits → bits[c]? = some b → (colorBits p c).toNat = b

/-- R85: DROP removes the front sample, reads no palette and sends nothing. -/
def Obligations.DropDiscardsTheFrontSample : Prop :=
  ∀ (s : State) (x : Sample) (rest : List Sample), InService s → s.q = x :: rest →
    exec .drop s = .next (answered { s with q := rest } 0)

/-! ### What commands leave alone -/

/-- R26, R32: which commands write which piece of state, from every state, in service or not. -/
def Obligations.CommandsWriteOnlyWhatTheAccessTableSays : Prop :=
  ∀ (i : Instr) (s t : State), exec i s = .next t →
    t.cfg = s.cfg ∧ t.inbox = s.inbox ∧ t.inputs = s.inputs ∧ t.bank = s.bank
    ∧ (inserts i = false → t.cap = s.cap)
    ∧ (i ≠ .pop → t.sinkOut = s.sinkOut)
    ∧ ((i = .len ∨ i = .cnt ∨ ∃ idx, i = .get idx) → t.q = s.q)
    ∧ ((i = .len ∨ i = .cnt ∨ i = .clr ∨ i = .rclr) →
        t.fstat = s.fstat ∧ t.findex = s.findex ∧ t.fcount = s.fcount)
    ∧ (InService t → t.fstat = s.fstat ∧ t.findex = s.findex ∧ t.fcount = s.fcount)

/-- R25, R32: no command but OVL depends on the enable flag. -/
def Obligations.OnlyOverlayReadsTheEnableFlag : Prop :=
  ∀ (i : Instr) (s t : State) (b : Bool), (∀ colors pal prio oam ofs, i ≠ .ovl colors pal prio oam ofs) →
    exec i s = .next t → exec i (withBgEn b s) = .next (withBgEn b t)

/-- R26, R32: no command but POP depends on the palette banks. -/
def Obligations.OnlyPopReadsThePalettes : Prop :=
  ∀ (i : Instr) (s t : State) (bg obj : Bank), i ≠ .pop →
    exec i s = .next t → exec i (withPalettes bg obj s) = .next (withPalettes bg obj t)

/-- R27, R105: a fault-free driver cycle ends with an empty queue, the capacity not smaller, and exactly one color
sent per POP, behind the colors sent before. -/
def Obligations.ADriverCycleSendsOneColorPerPop : Prop :=
  ∀ (is : List Instr) (s t : State), driverCycle is = true → runCommands is s = .next t → InService t →
    t.q = [] ∧ s.cap ≤ t.cap ∧ ∃ colors, t.sinkOut = s.sinkOut ++ colors ∧ colors.length = popCount is

/-! ### The physical ring -/

/-- R19, R31: the ring at reset represents the reset state, whatever its slots hold. -/
def Obligations.TheRingAtResetRepresentsTheResetState : Prop :=
  ∀ (fresh : Nat → Sample) (p : Params) (inputs : Inputs), 1 ≤ p.initCap →
    (Ring.atReset p.initCap fresh).Represents (State.resetWith p inputs)

/-- R19: reading the slot of a logical offset reads the queue at that offset, wrapped or not. -/
def Obligations.ARingSlotHoldsTheSampleAtItsOffset : Prop :=
  ∀ (r : Ring) (s : State), r.Represents s →
    r.cnt = s.q.length ∧ ∀ i < r.cnt, r.read i = s.q[i]?

/-- R19, R68 to R75: the ring refines the queue: after every command that raises no fault the ring represents the
new state, across growth and wrap, whatever unspecified values fresh slots hold. -/
def Obligations.TheRingRefinesTheQueue : Prop :=
  ∀ (fresh : Nat → Sample) (i : Instr) (r : Ring) (s t : State), r.Represents s → exec i s = .next t → InService t →
    (r.command s.cfg s.inputs.bgEn fresh i).Represents t

/-! ### The environment's register bank -/

/-- R46: a read of a write-only register answers all ones, a write to a read-only register changes nothing, every
other read answers the register, every other write replaces it alone. That a value fits REG_W bits is a premise, since
what a wider one does is the model's choice (log entry 12). -/
def Obligations.TheRegisterBankFollowsItsAccessModes : Prop :=
  ∀ (s : State) (rest : List PortEvent) (name : RegName) (r : BankRegister),
    s.bank.registers.find? (fun r => r.named name) = some r →
    (s.inbox = .bankRead name :: rest → r.mode = .writeOnly →
      step s = .next { s with inbox := rest, bank := { s.bank with readData := some (2 ^ s.cfg.regW - 1) } })
    ∧ (s.inbox = .bankRead name :: rest → r.mode ≠ .writeOnly →
      step s = .next { s with inbox := rest, bank := { s.bank with readData := some r.value } })
    ∧ (∀ v, s.inbox = .bankWrite name v :: rest → r.mode = .readOnly → step s = .next { s with inbox := rest })
    ∧ ∀ v, s.inbox = .bankWrite name v :: rest → r.mode ≠ .readOnly → v < 2 ^ s.cfg.regW →
      ∃ regs, step s = .next { s with inbox := rest, bank := { s.bank with registers := regs } }
        ∧ regs.find? (fun r => r.named name) = some { r with value := v } ∧ regs.length = s.bank.registers.length
        ∧ ∀ (k : Nat) (other : BankRegister), s.bank.registers[k]? = some other → other.named name = false →
            regs[k]? = some other

/-- R47: a lookup of an identity unknown to the bank is a fault, never a value; a raw address is permissive. That a raw
write where no register lies changes nothing is the model's choice (log entry 12). -/
def Obligations.AnUnknownRegisterIdentityFaults : Prop :=
  ∀ (s : State) (rest : List PortEvent) (id addr v : Nat),
    (∀ r ∈ s.bank.registers, r.identity ≠ id) → (∀ r ∈ s.bank.registers, r.addr ≠ addr) →
    (s.inbox = .bankRead (.byIdentity id) :: rest → step s = .fault (.unknownRegister id))
    ∧ (s.inbox = .bankWrite (.byIdentity id) v :: rest → step s = .fault (.unknownRegister id))
    ∧ (s.inbox = .bankRead (.byAddress addr) :: rest → ∃ t, step s = .next t)
    ∧ (s.inbox = .bankWrite (.byAddress addr) v :: rest → step s = .next { s with inbox := rest })

/-! ### Colors -/

/-- R7, D10, U5: the block routes colors without computing on them: renaming every color, under any other color type,
encoding and width, renames what the sink receives, and no command answers otherwise but POP, in its RDATA alone. -/
def Obligations.TheBlockOnlyRoutesColors : Prop :=
  ∀ (f : Color → Color) (type : ColorType) (width : Nat) (i : Instr) (s t : State), exec i s = .next t →
    ∃ u, exec i (withColors f type width s) = .next u
      ∧ u = { withColors f type width t with resp := u.resp }
      ∧ u.resp.map Response.rstat = t.resp.map Response.rstat
      ∧ (i ≠ .pop → u = withColors f type width t)
end

