-- ==== Sys2Proof/Laws/Bits.lean ====
section
/-! SUPPORT. Small lemmas about bit fields, `nextPow2`, and the layout of `FSTAT`. -/

namespace Sys2Proof.Bits

/-- A field of `hi - lo + 1` bits is below `2^(hi - lo + 1)`. -/
theorem slice_lt (w hi lo : Nat) : slice w hi lo < 2 ^ (hi + 1 - lo) := Nat.mod_lt _ (by positivity)

/-- A field of a number that is the field's weight times it, plus what lies below and above. -/
theorem slice_eq (w hi lo : Nat) : slice w hi lo = w / 2 ^ lo % 2 ^ (hi + 1 - lo) := rfl

theorem nextPow2_small {x : Nat} (h : x ≤ 1) : nextPow2 x = 1 := if_pos h

theorem nextPow2_large {x : Nat} (h : 1 < x) : nextPow2 x = 2 ^ (Nat.log2 (x - 1) + 1) := if_neg (by omega)

theorem nextPow2_pow (x : Nat) : ∃ k, nextPow2 x = 2 ^ k := by
  by_cases h : x ≤ 1
  · exact ⟨0, nextPow2_small h⟩
  · exact ⟨_, nextPow2_large (by omega)⟩

theorem le_nextPow2 (x : Nat) : x ≤ nextPow2 x := by
  by_cases h : x ≤ 1
  · rwa [nextPow2_small h]
  · have := Nat.lt_log2_self (n := x - 1)
    rw [nextPow2_large (by omega)]
    omega

theorem nextPow2_le_pow {x k : Nat} (h : x ≤ 2 ^ k) : nextPow2 x ≤ 2 ^ k := by
  by_cases h₁ : x ≤ 1
  · rw [nextPow2_small h₁]
    exact Nat.one_le_two_pow
  · rw [nextPow2_large (by omega)]
    exact Nat.pow_le_pow_right (by omega) ((Nat.log2_lt (by omega)).mpr (by omega))

theorem isPow2_iff {x : Nat} : isPow2 x = true ↔ ∃ k, x = 2 ^ k := by
  unfold isPow2
  refine ⟨fun h => ⟨_, by simpa using h⟩, ?_⟩
  rintro ⟨k, rfl⟩
  simp [Nat.log2_two_pow]

/-- A two's-complement field reads back the integer it holds (R59). -/
theorem sext16_twos16 {i : Int} (lo : -(2 ^ 15) ≤ i) (hi : i < 2 ^ 15) : sext16 (twos16 i) = i := by
  unfold sext16 twos16
  split <;> omega

theorem twos16_lt (i : Int) : twos16 i < 2 ^ 16 := by
  unfold twos16
  omega

theorem bit_lt (b : Bool) : bit b < 2 := by
  cases b <;> decide

end Sys2Proof.Bits

namespace Sys2Proof.Machine.FStat

open Sys2Proof.Bits

theorem code_bounds (f : FaultCode) : 1 ≤ f.code ∧ f.code ≤ 5 := by
  cases f <;> decide

/-- The value of a packed FSTAT (R95): every field lies below the next. -/
theorem pack_toNat (op lane : Nat) (f : FaultCode) :
    (pack op lane f).toNat = 1 + f.code * 2 ^ 1 + lane % 2 ^ 3 * 2 ^ 5 + op % 2 ^ 4 * 2 ^ 8 := by
  have := code_bounds f
  simp only [pack, BitVec.toNat_ofNat]
  omega

/-- FAULT of a packed FSTAT is 1. -/
@[simp] theorem fault_pack (op lane : Nat) (f : FaultCode) : fault (pack op lane f) = true := by
  simp only [fault, slice_eq, pack_toNat, beq_iff_eq]
  omega

/-- FCODE of a packed FSTAT is the fault's code. -/
@[simp] theorem fcode_pack (op lane : Nat) (f : FaultCode) : fcode (pack op lane f) = f.code := by
  have := code_bounds f
  simp only [fcode, slice_eq, pack_toNat]
  omega

/-- FLANE of a packed FSTAT is the lane. -/
@[simp] theorem flane_pack (op lane : Nat) (f : FaultCode) : flane (pack op lane f) = lane % 8 := by
  have := code_bounds f
  simp only [flane, slice_eq, pack_toNat]
  omega

/-- FOP of a packed FSTAT is the opcode. -/
@[simp] theorem fop_pack (op lane : Nat) (f : FaultCode) : fop (pack op lane f) = op % 16 := by
  have := code_bounds f
  simp only [fop, slice_eq, pack_toNat]
  omega

/-- The reserved field of a packed FSTAT is 0. -/
@[simp] theorem reserved_pack (op lane : Nat) (f : FaultCode) : reserved (pack op lane f) = 0 := by
  have := code_bounds f
  simp only [reserved, slice_eq, pack_toNat]
  omega

/-- A packed FSTAT is legal (R21). -/
theorem legal_pack (op lane : Nat) (f : FaultCode) : legal (pack op lane f) = true := by
  have := code_bounds f
  simp [legal]
  omega

end Sys2Proof.Machine.FStat
end

