-- ==== Sys2Proof/Laws/Encoding.lean ====
section
/-! SUPPORT. Small lemmas about the fields of a command word: LANES, the reserved fields, masks. -/

namespace Sys2Proof

open Bits

/-- LANES of eight colors fits its sixteen bits (R58). -/
theorem packLanes_lt (colors : List ColorIdx) : packLanes colors < 4 ^ colors.length := by
  induction colors with
  | nil => simp [packLanes]
  | cons c rest ih =>
    have := c.isLt
    simp only [packLanes, List.length_cons, Nat.pow_succ]
    omega

/-- The lanes read from a word pack to its bits [23:8] (R58). -/
theorem packLanes_lanesOf (w : Nat) : packLanes (lanesOf w) = slice w 23 8 := by
  simp only [lanesOf, packLanes, slice, Fin.ofNat]
  simp only [Nat.reduceAdd, Nat.reduceSub, Nat.reducePow]
  omega

@[simp] theorem lanesOf_length (w : Nat) : (lanesOf w).length = 8 := rfl

/-- A command is read only where its reserved fields are 0 (R63 (b)). -/
theorem whenClear_ok {reserved : List Nat} {i j : Instr} (h : whenClear reserved i = .ok j) :
    j = i ∧ reserved.all (· == 0) = true := by
  unfold whenClear at h
  split at h
  · exact ⟨by simpa using h.symm, ‹_›⟩
  · cases h

/-- A one-bit field, read as a flag and written back. -/
theorem bit_slice (w k : Nat) : bit (slice w k k == 1) = slice w k k := by
  have h : slice w k k < 2 := by
    have := slice_lt w k k
    rwa [show k + 1 - k = 1 by omega] at this
  rcases (by omega : slice w k k = 0 ∨ slice w k k = 1) with h | h <;> simp [h, bit]

/-- The other direction of `sext16_twos16` (R59). -/
theorem twos16_sext16 {v : Nat} (h : v < 2 ^ 16) : twos16 (sext16 v) = v := by
  unfold twos16 sext16
  split <;> omega

theorem sext16_range {v : Nat} (h : v < 2 ^ 16) : -(2 ^ 15) ≤ sext16 v ∧ sext16 v < 2 ^ 15 := by
  unfold sext16
  split <;> omega

/-- A mask with ones below `lo` and from `hi` up keeps just those bits (the masks of R62). -/
theorem and_mask (w lo hi : Nat) (hw : w < 2 ^ 64) (h₁ : lo ≤ hi) (h₂ : hi ≤ 64) :
    w &&& ((2 ^ 64 - 2 ^ hi) + (2 ^ lo - 1)) = w / 2 ^ hi * 2 ^ hi + w % 2 ^ lo := by
  have hlo : 0 < 2 ^ lo := Nat.two_pow_pos _
  have hle : 2 ^ lo ≤ 2 ^ hi := Nat.pow_le_pow_right (by omega) h₁
  have hsum : (2 ^ 64 - 2 ^ hi) + (2 ^ lo - 1) = 2 ^ hi * (2 ^ (64 - hi) - 1) + (2 ^ lo - 1) := by
    rw [Nat.mul_sub, ← Nat.pow_add, show hi + (64 - hi) = 64 by omega, Nat.mul_one]
  apply Nat.eq_of_testBit_eq
  intro i
  rw [Nat.testBit_and, hsum, Nat.testBit_two_pow_mul_add _ (by omega), Nat.mul_comm (w / 2 ^ hi),
    Nat.testBit_two_pow_mul_add _ (by have := Nat.mod_lt w hlo; omega)]
  split
  · rw [Nat.testBit_two_pow_sub_one, Nat.testBit_mod_two_pow]
    cases decide (i < lo) <;> simp
  · rw [Nat.testBit_two_pow_sub_one, Nat.testBit_div_two_pow]
    by_cases h : i - hi < 64 - hi
    · simp [h, show i - hi + hi = i by omega]
    · simp only [h, decide_false, Bool.and_false, Bool.false_eq, show i - hi + hi = i by omega]
      exact Nat.testBit_lt_two_pow (lt_of_lt_of_le hw (Nat.pow_le_pow_right (by omega) (by omega)))

end Sys2Proof
end

