-- ==== Sys2Proof/Laws/State.lean ====
section
/-! SUPPORT. One lemma per field per update of the state: what each named update writes, and that it leaves every
other field alone, so that no proof unfolds a record update. -/

namespace Sys2Proof.Machine

/-! ### `respond` -/

@[simp] theorem State.respond_cfg (s : State) (rstat : BitVec 4) (rdata : Data) :
    (s.respond rstat rdata).cfg = s.cfg := rfl
@[simp] theorem State.respond_inbox (s : State) (rstat : BitVec 4) (rdata : Data) :
    (s.respond rstat rdata).inbox = s.inbox := rfl
@[simp] theorem State.respond_q (s : State) (rstat : BitVec 4) (rdata : Data) :
    (s.respond rstat rdata).q = s.q := rfl
@[simp] theorem State.respond_cap (s : State) (rstat : BitVec 4) (rdata : Data) :
    (s.respond rstat rdata).cap = s.cap := rfl
@[simp] theorem State.respond_fstat (s : State) (rstat : BitVec 4) (rdata : Data) :
    (s.respond rstat rdata).fstat = s.fstat := rfl
@[simp] theorem State.respond_findex (s : State) (rstat : BitVec 4) (rdata : Data) :
    (s.respond rstat rdata).findex = s.findex := rfl
@[simp] theorem State.respond_fcount (s : State) (rstat : BitVec 4) (rdata : Data) :
    (s.respond rstat rdata).fcount = s.fcount := rfl
@[simp] theorem State.respond_resp (s : State) (rstat : BitVec 4) (rdata : Data) :
    (s.respond rstat rdata).resp = some { rstat := rstat, rdata := rdata } := rfl
@[simp] theorem State.respond_sinkOut (s : State) (rstat : BitVec 4) (rdata : Data) :
    (s.respond rstat rdata).sinkOut = s.sinkOut := rfl
@[simp] theorem State.respond_inputs (s : State) (rstat : BitVec 4) (rdata : Data) :
    (s.respond rstat rdata).inputs = s.inputs := rfl
@[simp] theorem State.respond_bank (s : State) (rstat : BitVec 4) (rdata : Data) :
    (s.respond rstat rdata).bank = s.bank := rfl
@[simp] theorem State.respond_free (s : State) (rstat : BitVec 4) (rdata : Data) :
    (s.respond rstat rdata).free = s.free := rfl

/-! ### `withQueue` -/

@[simp] theorem State.withQueue_cfg (s : State) (q : List Sample) :
    (s.withQueue q).cfg = s.cfg := rfl
@[simp] theorem State.withQueue_inbox (s : State) (q : List Sample) :
    (s.withQueue q).inbox = s.inbox := rfl
@[simp] theorem State.withQueue_q (s : State) (q : List Sample) :
    (s.withQueue q).q = q := rfl
@[simp] theorem State.withQueue_cap (s : State) (q : List Sample) :
    (s.withQueue q).cap = s.cap := rfl
@[simp] theorem State.withQueue_fstat (s : State) (q : List Sample) :
    (s.withQueue q).fstat = s.fstat := rfl
@[simp] theorem State.withQueue_findex (s : State) (q : List Sample) :
    (s.withQueue q).findex = s.findex := rfl
@[simp] theorem State.withQueue_fcount (s : State) (q : List Sample) :
    (s.withQueue q).fcount = s.fcount := rfl
@[simp] theorem State.withQueue_resp (s : State) (q : List Sample) :
    (s.withQueue q).resp = s.resp := rfl
@[simp] theorem State.withQueue_sinkOut (s : State) (q : List Sample) :
    (s.withQueue q).sinkOut = s.sinkOut := rfl
@[simp] theorem State.withQueue_inputs (s : State) (q : List Sample) :
    (s.withQueue q).inputs = s.inputs := rfl
@[simp] theorem State.withQueue_bank (s : State) (q : List Sample) :
    (s.withQueue q).bank = s.bank := rfl
@[simp] theorem State.withQueue_free (s : State) (q : List Sample) :
    (s.withQueue q).free = s.free := rfl

/-! ### `withCap` -/

@[simp] theorem State.withCap_cfg (s : State) (cap : Nat) :
    (s.withCap cap).cfg = s.cfg := rfl
@[simp] theorem State.withCap_inbox (s : State) (cap : Nat) :
    (s.withCap cap).inbox = s.inbox := rfl
@[simp] theorem State.withCap_q (s : State) (cap : Nat) :
    (s.withCap cap).q = s.q := rfl
@[simp] theorem State.withCap_cap (s : State) (cap : Nat) :
    (s.withCap cap).cap = cap := rfl
@[simp] theorem State.withCap_fstat (s : State) (cap : Nat) :
    (s.withCap cap).fstat = s.fstat := rfl
@[simp] theorem State.withCap_findex (s : State) (cap : Nat) :
    (s.withCap cap).findex = s.findex := rfl
@[simp] theorem State.withCap_fcount (s : State) (cap : Nat) :
    (s.withCap cap).fcount = s.fcount := rfl
@[simp] theorem State.withCap_resp (s : State) (cap : Nat) :
    (s.withCap cap).resp = s.resp := rfl
@[simp] theorem State.withCap_sinkOut (s : State) (cap : Nat) :
    (s.withCap cap).sinkOut = s.sinkOut := rfl
@[simp] theorem State.withCap_inputs (s : State) (cap : Nat) :
    (s.withCap cap).inputs = s.inputs := rfl
@[simp] theorem State.withCap_bank (s : State) (cap : Nat) :
    (s.withCap cap).bank = s.bank := rfl
@[simp] theorem State.withCap_free (s : State) (cap : Nat) :
    (s.withCap cap).free = s.free := rfl

/-! ### `deliver` -/

@[simp] theorem State.deliver_cfg (s : State) (c : Color) :
    (s.deliver c).cfg = s.cfg := rfl
@[simp] theorem State.deliver_inbox (s : State) (c : Color) :
    (s.deliver c).inbox = s.inbox := rfl
@[simp] theorem State.deliver_q (s : State) (c : Color) :
    (s.deliver c).q = s.q := rfl
@[simp] theorem State.deliver_cap (s : State) (c : Color) :
    (s.deliver c).cap = s.cap := rfl
@[simp] theorem State.deliver_fstat (s : State) (c : Color) :
    (s.deliver c).fstat = s.fstat := rfl
@[simp] theorem State.deliver_findex (s : State) (c : Color) :
    (s.deliver c).findex = s.findex := rfl
@[simp] theorem State.deliver_fcount (s : State) (c : Color) :
    (s.deliver c).fcount = s.fcount := rfl
@[simp] theorem State.deliver_resp (s : State) (c : Color) :
    (s.deliver c).resp = s.resp := rfl
@[simp] theorem State.deliver_sinkOut (s : State) (c : Color) :
    (s.deliver c).sinkOut = s.sinkOut ++ [c] := rfl
@[simp] theorem State.deliver_inputs (s : State) (c : Color) :
    (s.deliver c).inputs = s.inputs := rfl
@[simp] theorem State.deliver_bank (s : State) (c : Color) :
    (s.deliver c).bank = s.bank := rfl
@[simp] theorem State.deliver_free (s : State) (c : Color) :
    (s.deliver c).free = s.free := rfl

/-! ### `withInputs` -/

@[simp] theorem State.withInputs_cfg (s : State) (inputs : Inputs) :
    (s.withInputs inputs).cfg = s.cfg := rfl
@[simp] theorem State.withInputs_inbox (s : State) (inputs : Inputs) :
    (s.withInputs inputs).inbox = s.inbox := rfl
@[simp] theorem State.withInputs_q (s : State) (inputs : Inputs) :
    (s.withInputs inputs).q = s.q := rfl
@[simp] theorem State.withInputs_cap (s : State) (inputs : Inputs) :
    (s.withInputs inputs).cap = s.cap := rfl
@[simp] theorem State.withInputs_fstat (s : State) (inputs : Inputs) :
    (s.withInputs inputs).fstat = s.fstat := rfl
@[simp] theorem State.withInputs_findex (s : State) (inputs : Inputs) :
    (s.withInputs inputs).findex = s.findex := rfl
@[simp] theorem State.withInputs_fcount (s : State) (inputs : Inputs) :
    (s.withInputs inputs).fcount = s.fcount := rfl
@[simp] theorem State.withInputs_resp (s : State) (inputs : Inputs) :
    (s.withInputs inputs).resp = s.resp := rfl
@[simp] theorem State.withInputs_sinkOut (s : State) (inputs : Inputs) :
    (s.withInputs inputs).sinkOut = s.sinkOut := rfl
@[simp] theorem State.withInputs_inputs (s : State) (inputs : Inputs) :
    (s.withInputs inputs).inputs = inputs := rfl
@[simp] theorem State.withInputs_bank (s : State) (inputs : Inputs) :
    (s.withInputs inputs).bank = s.bank := rfl
@[simp] theorem State.withInputs_free (s : State) (inputs : Inputs) :
    (s.withInputs inputs).free = s.free := rfl

/-! ### `withBank` -/

@[simp] theorem State.withBank_cfg (s : State) (bank : RegBank) :
    (s.withBank bank).cfg = s.cfg := rfl
@[simp] theorem State.withBank_inbox (s : State) (bank : RegBank) :
    (s.withBank bank).inbox = s.inbox := rfl
@[simp] theorem State.withBank_q (s : State) (bank : RegBank) :
    (s.withBank bank).q = s.q := rfl
@[simp] theorem State.withBank_cap (s : State) (bank : RegBank) :
    (s.withBank bank).cap = s.cap := rfl
@[simp] theorem State.withBank_fstat (s : State) (bank : RegBank) :
    (s.withBank bank).fstat = s.fstat := rfl
@[simp] theorem State.withBank_findex (s : State) (bank : RegBank) :
    (s.withBank bank).findex = s.findex := rfl
@[simp] theorem State.withBank_fcount (s : State) (bank : RegBank) :
    (s.withBank bank).fcount = s.fcount := rfl
@[simp] theorem State.withBank_resp (s : State) (bank : RegBank) :
    (s.withBank bank).resp = s.resp := rfl
@[simp] theorem State.withBank_sinkOut (s : State) (bank : RegBank) :
    (s.withBank bank).sinkOut = s.sinkOut := rfl
@[simp] theorem State.withBank_inputs (s : State) (bank : RegBank) :
    (s.withBank bank).inputs = s.inputs := rfl
@[simp] theorem State.withBank_bank (s : State) (bank : RegBank) :
    (s.withBank bank).bank = bank := rfl
@[simp] theorem State.withBank_free (s : State) (bank : RegBank) :
    (s.withBank bank).free = s.free := rfl

/-! ### `withInbox` -/

@[simp] theorem State.withInbox_cfg (s : State) (inbox : List PortEvent) :
    (s.withInbox inbox).cfg = s.cfg := rfl
@[simp] theorem State.withInbox_inbox (s : State) (inbox : List PortEvent) :
    (s.withInbox inbox).inbox = inbox := rfl
@[simp] theorem State.withInbox_q (s : State) (inbox : List PortEvent) :
    (s.withInbox inbox).q = s.q := rfl
@[simp] theorem State.withInbox_cap (s : State) (inbox : List PortEvent) :
    (s.withInbox inbox).cap = s.cap := rfl
@[simp] theorem State.withInbox_fstat (s : State) (inbox : List PortEvent) :
    (s.withInbox inbox).fstat = s.fstat := rfl
@[simp] theorem State.withInbox_findex (s : State) (inbox : List PortEvent) :
    (s.withInbox inbox).findex = s.findex := rfl
@[simp] theorem State.withInbox_fcount (s : State) (inbox : List PortEvent) :
    (s.withInbox inbox).fcount = s.fcount := rfl
@[simp] theorem State.withInbox_resp (s : State) (inbox : List PortEvent) :
    (s.withInbox inbox).resp = s.resp := rfl
@[simp] theorem State.withInbox_sinkOut (s : State) (inbox : List PortEvent) :
    (s.withInbox inbox).sinkOut = s.sinkOut := rfl
@[simp] theorem State.withInbox_inputs (s : State) (inbox : List PortEvent) :
    (s.withInbox inbox).inputs = s.inputs := rfl
@[simp] theorem State.withInbox_bank (s : State) (inbox : List PortEvent) :
    (s.withInbox inbox).bank = s.bank := rfl
@[simp] theorem State.withInbox_free (s : State) (inbox : List PortEvent) :
    (s.withInbox inbox).free = s.free := rfl

/-! ### `recordFault` -/

@[simp] theorem State.recordFault_cfg (s : State) (op : Nat) (f : FaultCode) (lane : Nat) (info : Data) :
    (s.recordFault op f lane info).cfg = s.cfg := rfl
@[simp] theorem State.recordFault_inbox (s : State) (op : Nat) (f : FaultCode) (lane : Nat) (info : Data) :
    (s.recordFault op f lane info).inbox = s.inbox := rfl
@[simp] theorem State.recordFault_q (s : State) (op : Nat) (f : FaultCode) (lane : Nat) (info : Data) :
    (s.recordFault op f lane info).q = s.q := rfl
@[simp] theorem State.recordFault_cap (s : State) (op : Nat) (f : FaultCode) (lane : Nat) (info : Data) :
    (s.recordFault op f lane info).cap = s.cap := rfl
@[simp] theorem State.recordFault_fstat (s : State) (op : Nat) (f : FaultCode) (lane : Nat) (info : Data) :
    (s.recordFault op f lane info).fstat = FStat.pack op lane f := rfl
@[simp] theorem State.recordFault_findex (s : State) (op : Nat) (f : FaultCode) (lane : Nat) (info : Data) :
    (s.recordFault op f lane info).findex = info := rfl
@[simp] theorem State.recordFault_fcount (s : State) (op : Nat) (f : FaultCode) (lane : Nat) (info : Data) :
    (s.recordFault op f lane info).fcount = BitVec.ofNat 32 s.q.length := rfl
@[simp] theorem State.recordFault_resp (s : State) (op : Nat) (f : FaultCode) (lane : Nat) (info : Data) :
    (s.recordFault op f lane info).resp = s.resp := rfl
@[simp] theorem State.recordFault_sinkOut (s : State) (op : Nat) (f : FaultCode) (lane : Nat) (info : Data) :
    (s.recordFault op f lane info).sinkOut = s.sinkOut := rfl
@[simp] theorem State.recordFault_inputs (s : State) (op : Nat) (f : FaultCode) (lane : Nat) (info : Data) :
    (s.recordFault op f lane info).inputs = s.inputs := rfl
@[simp] theorem State.recordFault_bank (s : State) (op : Nat) (f : FaultCode) (lane : Nat) (info : Data) :
    (s.recordFault op f lane info).bank = s.bank := rfl
@[simp] theorem State.recordFault_free (s : State) (op : Nat) (f : FaultCode) (lane : Nat) (info : Data) :
    (s.recordFault op f lane info).free = s.free := rfl

/-! ### `forgetQueue` -/

@[simp] theorem State.forgetQueue_cfg (s : State) :
    (s.forgetQueue).cfg = s.cfg := rfl
@[simp] theorem State.forgetQueue_inbox (s : State) :
    (s.forgetQueue).inbox = s.inbox := rfl
@[simp] theorem State.forgetQueue_q (s : State) :
    (s.forgetQueue).q = (List.range s.q.length).map fun k => Config.freeSample (s.free + k) := rfl
@[simp] theorem State.forgetQueue_cap (s : State) :
    (s.forgetQueue).cap = s.cap := rfl
@[simp] theorem State.forgetQueue_fstat (s : State) :
    (s.forgetQueue).fstat = s.fstat := rfl
@[simp] theorem State.forgetQueue_findex (s : State) :
    (s.forgetQueue).findex = s.findex := rfl
@[simp] theorem State.forgetQueue_fcount (s : State) :
    (s.forgetQueue).fcount = s.fcount := rfl
@[simp] theorem State.forgetQueue_resp (s : State) :
    (s.forgetQueue).resp = s.resp := rfl
@[simp] theorem State.forgetQueue_sinkOut (s : State) :
    (s.forgetQueue).sinkOut = s.sinkOut := rfl
@[simp] theorem State.forgetQueue_inputs (s : State) :
    (s.forgetQueue).inputs = s.inputs := rfl
@[simp] theorem State.forgetQueue_bank (s : State) :
    (s.forgetQueue).bank = s.bank := rfl
@[simp] theorem State.forgetQueue_free (s : State) :
    (s.forgetQueue).free = s.free + s.q.length := rfl

/-! ### `resetBlock` -/

@[simp] theorem State.resetBlock_cfg (s : State) :
    (s.resetBlock).cfg = s.cfg := rfl
@[simp] theorem State.resetBlock_inbox (s : State) :
    (s.resetBlock).inbox = s.inbox := rfl
@[simp] theorem State.resetBlock_q (s : State) :
    (s.resetBlock).q = [] := rfl
@[simp] theorem State.resetBlock_cap (s : State) :
    (s.resetBlock).cap = s.cfg.initCap := rfl
@[simp] theorem State.resetBlock_fstat (s : State) :
    (s.resetBlock).fstat = 0 := rfl
@[simp] theorem State.resetBlock_findex (s : State) :
    (s.resetBlock).findex = 0 := rfl
@[simp] theorem State.resetBlock_fcount (s : State) :
    (s.resetBlock).fcount = 0 := rfl
@[simp] theorem State.resetBlock_resp (s : State) :
    (s.resetBlock).resp = none := rfl
@[simp] theorem State.resetBlock_sinkOut (s : State) :
    (s.resetBlock).sinkOut = [] := rfl
@[simp] theorem State.resetBlock_inputs (s : State) :
    (s.resetBlock).inputs = s.inputs := rfl
@[simp] theorem State.resetBlock_bank (s : State) :
    (s.resetBlock).bank = s.bank := rfl
@[simp] theorem State.resetBlock_free (s : State) :
    (s.resetBlock).free = s.free := rfl

/-! ### Derived fields -/

@[simp] theorem State.respond_halted (s : State) (rstat : BitVec 4) (rdata : Data) :
    (s.respond rstat rdata).halted = s.halted := rfl
@[simp] theorem State.withQueue_halted (s : State) (q : List Sample) : (s.withQueue q).halted = s.halted := rfl
@[simp] theorem State.withCap_halted (s : State) (cap : Nat) : (s.withCap cap).halted = s.halted := rfl
@[simp] theorem State.deliver_halted (s : State) (c : Color) : (s.deliver c).halted = s.halted := rfl
@[simp] theorem State.withInputs_halted (s : State) (inputs : Inputs) : (s.withInputs inputs).halted = s.halted := rfl
@[simp] theorem State.withBank_halted (s : State) (bank : RegBank) : (s.withBank bank).halted = s.halted := rfl
@[simp] theorem State.withInbox_halted (s : State) (inbox : List PortEvent) : (s.withInbox inbox).halted = s.halted := rfl
@[simp] theorem State.forgetQueue_halted (s : State) : s.forgetQueue.halted = s.halted := rfl
@[simp] theorem State.resetBlock_halted (s : State) : s.resetBlock.halted = false :=
  show FStat.fault 0 = false by decide

/-- An overlay fault leaves the count unchanged (R95). -/
@[simp] theorem State.forgetQueue_length (s : State) : s.forgetQueue.q.length = s.q.length := by simp

end Sys2Proof.Machine
end

