-- ==== Sys2Proof/Laws/Ops.lean ====
section
/-! SUPPORT. One lemma per shared operation that says once everything it can do; the provers cite these instead of
unfolding the operations. -/

namespace Sys2Proof.Machine

open Sys2Proof.Bits

/-! ### Outcomes -/

@[simp] theorem unlessHalted_running {s : State} (h : s.halted = false) (r : Result) : unlessHalted s r = r := by
  simp [unlessHalted, h]

@[simp] theorem unlessHalted_halted {s : State} (h : s.halted = true) (r : Result) :
    unlessHalted s r = .next (s.respond rstatHalted 0) := by
  simp [unlessHalted, h]

/-- A next state of a guarded command is a halted refusal, or the command's own next state in service. -/
theorem unlessHalted_next {s t : State} {r : Result} (h : unlessHalted s r = .next t) :
    (s.halted = true ∧ t = s.respond rstatHalted 0) ∨ (s.halted = false ∧ r = .next t) := by
  cases hs : s.halted with
  | true => exact .inl ⟨rfl, by simpa [hs] using h.symm⟩
  | false => exact .inr ⟨rfl, by simpa [hs] using h⟩

@[simp] theorem recordFault_halted (s : State) (op : Nat) (f : FaultCode) (lane : Nat) (info : Data) :
    (s.recordFault op f lane info).halted = true := FStat.fault_pack op lane f

/-- A raise always answers, with the fault entry of R95. -/
theorem raise_next {s t : State} {op lane : Nat} {f : FaultCode} {info : Data} (h : raise op f lane info s = .next t) :
    t = (s.recordFault op f lane info).respond (BitVec.ofNat 4 f.code) 0 := by
  simpa [raise] using h.symm

theorem ok_next {s t : State} {d : Data} (h : ok d s = .next t) : t = s.respond rstatOk d := by
  simpa [ok] using h.symm

/-! ### The ring buffer -/

/-- `Grow(n)` keeps the state or takes the next power of two (R68). -/
theorem grow_some {n : Nat} {s t : State} (h : grow n s = some t) :
    (s.q.length + n ≤ s.cap ∧ t = s)
    ∨ (s.cap < s.q.length + n ∧ nextPow2 (s.q.length + n) ≤ s.cfg.maxCap
        ∧ t = s.withCap (nextPow2 (s.q.length + n))) := by
  unfold grow at h
  split at h
  · exact .inl ⟨‹_›, by simpa using h.symm⟩
  · split at h
    · exact .inr ⟨by omega, ‹_›, by simpa using h.symm⟩
    · cases h

theorem grow_none {n : Nat} {s : State} (h : grow n s = none) :
    s.cap < s.q.length + n ∧ s.cfg.maxCap < nextPow2 (s.q.length + n) := by
  unfold grow at h
  split at h
  · cases h
  · split at h
    · cases h
    · omega

/-- An insert raises CAPACITY, or grows and appends at the back (R38). -/
theorem appendBack_next {op : Nat} {xs : List Sample} {s t : State} (h : appendBack op xs s = .next t) :
    (grow xs.length s = none
        ∧ t = (s.recordFault op .capacity 0 (BitVec.ofNat 32 (s.q.length + xs.length))).respond 5 0)
    ∨ ∃ g, grow xs.length s = some g ∧ t = (g.withQueue (g.q ++ xs)).respond rstatOk 0 := by
  unfold appendBack at h
  split at h
  · exact .inl ⟨‹_›, raise_next h⟩
  · exact .inr ⟨_, ‹_›, ok_next h⟩

@[simp] theorem removeFront_nil {op : Nat} {s : State} (h : s.q = []) (k : Sample → State → Result) :
    removeFront op s k = raise op .emptyQueue 0 0 s := by
  simp [removeFront, h]

@[simp] theorem removeFront_cons {op : Nat} {s : State} {x : Sample} {rest : List Sample} (h : s.q = x :: rest)
    (k : Sample → State → Result) : removeFront op s k = k x (s.withQueue rest) := by
  simp [removeFront, h]

theorem clearQueue_next {s t : State} (h : clearQueue s = .next t) : t = (s.withQueue []).respond rstatOk 0 :=
  ok_next h

/-! ### Operands -/

theorem sampleAt_ofNat (q : List Sample) (i : Nat) : sampleAt q (i : Int) = q[i]? := by
  simp [sampleAt]

/-- An index names a sample exactly when it is in [0, |Q|) (R34). -/
theorem sampleAt_some_iff {q : List Sample} {i : Int} {x : Sample} :
    sampleAt q i = some x ↔ 0 ≤ i ∧ q[i.toNat]? = some x := by
  unfold sampleAt
  split <;> simp_all

theorem sampleAt_none_iff {q : List Sample} {i : Int} : sampleAt q i = none ↔ ¬(0 ≤ i ∧ i < q.length) := by
  unfold sampleAt
  split
  · simp only [List.getElem?_eq_none_iff]
    omega
  · simp_all

theorem decodeSample_some_iff {s : SampleWord} : (decodeSample s).isSome = sampleWellFormed s := by
  unfold decodeSample
  split <;> simp_all

theorem decodeSample_none_iff {s : SampleWord} : decodeSample s = none ↔ sampleWellFormed s = false := by
  unfold decodeSample
  split <;> simp_all

/-- A batch decodes exactly when each of its words does, word by word. -/
theorem decodeSamples_ok_iff {ws : List SampleWord} {xs : List Sample} {k : Nat} :
    decodeSamples k ws = .ok xs ↔ ws.map decodeSample = xs.map some := by
  induction ws generalizing xs k with
  | nil => cases xs <;> simp [decodeSamples]
  | cons w rest ih =>
    unfold decodeSamples
    cases hw : decodeSample w with
    | none => cases xs <;> simp [hw]
    | some x =>
      cases hr : decodeSamples (k + 1) rest with
      | error e =>
        cases xs with
        | nil => simp
        | cons y ys =>
          have : ¬ decodeSamples (k + 1) rest = .ok ys := by simp [hr]
          simp only [reduceCtorEq, List.map_cons, List.cons.injEq, hw, false_iff, not_and]
          exact fun _ h => this (ih.mpr h)
      | ok zs =>
        have hz := ih.mp hr
        cases xs with
        | nil => simp
        | cons y ys =>
          simp only [Except.ok.injEq, List.cons.injEq, List.map_cons, hw, Option.some.injEq, hz]
          refine and_congr_right fun _ => ⟨fun h => by rw [h], fun h => ?_⟩
          exact List.map_injective_iff.mpr (Option.some_injective _) h

theorem decodeSamples_length {ws : List SampleWord} {xs : List Sample} {k : Nat} (h : decodeSamples k ws = .ok xs) :
    xs.length = ws.length := by
  simpa using (congrArg List.length (decodeSamples_ok_iff.mp h)).symm

/-- A batch that does not decode names an ill-formed word at its slot, with only well-formed ones before it. -/
theorem decodeSamples_error {ws : List SampleWord} {k k' : Nat} {w : SampleWord}
    (h : decodeSamples k ws = .error (k', w)) :
    decodeSample w = none ∧ ∃ j, k' = k + j ∧ ws[j]? = some w
      ∧ ∀ j' < j, ∀ w', ws[j']? = some w' → decodeSample w' ≠ none := by
  induction ws generalizing k with
  | nil => cases h
  | cons v rest ih =>
    unfold decodeSamples at h
    cases hv : decodeSample v with
    | none =>
      simp only [hv, Except.error.injEq, Prod.mk.injEq] at h
      obtain ⟨rfl, rfl⟩ := h
      exact ⟨hv, 0, rfl, rfl, by simp⟩
    | some x =>
      cases hr : decodeSamples (k + 1) rest with
      | ok zs => simp [hv, hr] at h
      | error e =>
        simp only [hv, hr, Except.error.injEq] at h
        subst h
        obtain ⟨hw, j, rfl, hj, hlow⟩ := ih hr
        refine ⟨hw, j + 1, by omega, by simpa using hj, fun j' hj' w' hw' => ?_⟩
        cases j' with
        | zero =>
          simp only [List.getElem?_cons_zero, Option.some.injEq] at hw'
          simp [← hw', hv]
        | succ m => exact hlow m (by omega) w' (by simpa using hw')

@[simp] theorem rowSamples_length (colors : List ColorIdx) (pal : PalIdx) (prio : Bool) :
    (rowSamples colors pal prio).length = colors.length := by
  simp [rowSamples]

@[simp] theorem batchWords_length (n : Fin 4) (smp0 smp1 smp2 : SampleWord) :
    (batchWords n smp0 smp1 smp2).length = n.val := by
  simp only [batchWords, List.length_take, List.length_cons, List.length_nil]
  omega

/-- An encoding has COLOR_W bits (R7). -/
theorem colorBits_toNat {p : Params} (h : p.colorW ≤ 32) (c : Color) :
    (colorBits p c).toNat = encodeColor p.color c % 2 ^ p.colorW := by
  rw [colorBits, BitVec.toNat_ofNat]
  exact Nat.mod_eq_of_lt
    (lt_of_lt_of_le (Nat.mod_lt _ (Nat.two_pow_pos _)) (Nat.pow_le_pow_right (by omega) h))

@[simp] theorem encodeColor_unsigned (c : Color) : encodeColor .unsigned c = c := rfl
@[simp] theorem encodeColor_table (bits : List Nat) (c : Color) : encodeColor (.table bits) c = bits.getD c 0 := rfl

theorem isColor_unsigned {p : Params} (h : p.color = .unsigned) {c : Nat} : isColor p c = true ↔ c < 2 ^ p.colorW := by
  simp [isColor, h]

/-- Every legal type has color 0. -/
theorem isColor_zero {p : Params} (h : p.color.legal p.colorW = true) : isColor p 0 = true := by
  unfold isColor
  split <;> simp_all [ColorType.legal, List.length_pos_iff]

/-! ### The overlay's lane loop -/

/-- OVL never changes the count (R81). -/
theorem overlay_length {start : Int} {bgEn : Bool} {pal : PalIdx} {prio : Bool} {oam : OamIdx} {ofs : Int} {j : Nat}
    {colors : List ColorIdx} {q q' : List Sample} (h : overlay start bgEn pal prio oam ofs j colors q = .ok q') :
    q'.length = q.length := by
  induction colors generalizing j q with
  | nil => simp_all [overlay]
  | cons c rest ih =>
    unfold overlay at h
    split at h
    · exact ih h
    · split at h
      · cases h
      · rw [ih h]
        split <;> simp

/-- A lane that is skipped leaves the loop as it was (R81). -/
theorem overlay_skip {start : Int} {bgEn : Bool} {pal : PalIdx} {prio : Bool} {oam : OamIdx} {ofs : Int} {j : Nat}
    {c : ColorIdx} {rest : List ColorIdx} {q : List Sample} (h : (j : Int) < start ∨ c = 0) :
    overlay start bgEn pal prio oam ofs j (c :: rest) q = overlay start bgEn pal prio oam ofs (j + 1) rest q := by
  have : (decide ((j : Int) < start) || c == 0) = true := by simpa using h
  rw [overlay, if_pos this]

/-- A shown lane without a target ends the loop with its lane and index (R81, R91). -/
theorem overlay_fault {start : Int} {bgEn : Bool} {pal : PalIdx} {prio : Bool} {oam : OamIdx} {ofs : Int} {j : Nat}
    {c : ColorIdx} {rest : List ColorIdx} {q : List Sample} (h : ¬((j : Int) < start ∨ c = 0))
    (ht : sampleAt q (j - ofs) = none) :
    overlay start bgEn pal prio oam ofs j (c :: rest) q = .error (j, j - ofs) := by
  have : ¬(decide ((j : Int) < start) || c == 0) = true := by simpa using h
  rw [overlay, if_neg this, ht]

/-- A shown lane with a target replaces it where the mux does (R79, R81). -/
theorem overlay_lane {start : Int} {bgEn : Bool} {pal : PalIdx} {prio : Bool} {oam : OamIdx} {ofs : Int} {j : Nat}
    {c : ColorIdx} {rest : List ColorIdx} {q : List Sample} {old : Sample} (h : ¬((j : Int) < start ∨ c = 0))
    (ht : sampleAt q (j - ofs) = some old) :
    overlay start bgEn pal prio oam ofs j (c :: rest) q
      = overlay start bgEn pal prio oam ofs (j + 1) rest
          (if mux old bgEn prio oam then q.set (j - ofs).toNat { color := c, pal := pal, tag := .sprite oam }
           else q) := by
  have : ¬(decide ((j : Int) < start) || c == 0) = true := by simpa using h
  rw [overlay, if_neg this, ht]

/-! ### What a command can do -/

/-- Everything `exec` can answer, over all commands: a halted refusal; a fault entry on the state at the start of the
command, its queue kept or (an overlay's fault) forgotten; or an OK answer with a new queue, a capacity that `Grow`
allows, and the sink with the colors the command sent. -/
inductive CommandEffect (s t : State) : Prop where
  | refused (h : s.halted = true) (ht : t = s.respond rstatHalted 0)
  | faulted (h : s.halted = false) (op : Nat) (f : FaultCode) (lane : Nat) (info : Data) (u : State)
      (hu : u = s ∨ u = s.forgetQueue)
      (ht : t = (u.recordFault op f lane info).respond (BitVec.ofNat 4 f.code) 0)
  | done (h : s.halted = false) (q : List Sample) (g : State)
      (hg : (g = s ∧ q.length ≤ s.q.length) ∨ ∃ n, grow n s = some g ∧ q.length = s.q.length + n)
      (sent : List Color) (hs : sent = [] ∨ ∃ x, sent = [arbitrate s.inputs x]) (d : Data)
      (ht : t = ({ g with sinkOut := s.sinkOut ++ sent }.withQueue q).respond rstatOk d)

theorem CommandEffect.of_raise {s t : State} (h : s.halted = false) {op lane : Nat} {f : FaultCode} {info : Data}
    (hr : raise op f lane info s = .next t) : CommandEffect s t :=
  .faulted h op f lane info s (.inl rfl) (raise_next hr)

/-- An OK answer that changes the queue alone, without lengthening it. -/
theorem CommandEffect.of_ok {s t : State} (h : s.halted = false) {q : List Sample} (hq : q.length ≤ s.q.length)
    {d : Data} (hr : ok d (s.withQueue q) = .next t) : CommandEffect s t :=
  .done h q s (.inl ⟨rfl, hq⟩) [] (.inl rfl) d (by rw [ok_next hr]; simp)

theorem CommandEffect.of_appendBack {s t : State} (h : s.halted = false) {op : Nat} {xs : List Sample}
    (hr : appendBack op xs s = .next t) : CommandEffect s t := by
  obtain ⟨-, rfl⟩ | ⟨g, hg, rfl⟩ := appendBack_next hr
  · exact .faulted h op .capacity 0 _ s (.inl rfl) rfl
  · have hgq : g.q = s.q ∧ g.sinkOut = s.sinkOut := by
      obtain ⟨-, rfl⟩ | ⟨-, -, rfl⟩ := grow_some hg <;> simp
    exact .done h (g.q ++ xs) g (.inr ⟨xs.length, hg, by simp [hgq.1]⟩) [] (.inl rfl) 0 (by simp [← hgq.2])

theorem CommandEffect.of_removeFront {s t : State} (h : s.halted = false) {op : Nat} {k : Sample → State → Result}
    (hk : ∀ x rest, s.q = x :: rest → k x (s.withQueue rest) = .next t →
      ∃ d sent, (sent = [] ∨ ∃ x, sent = [arbitrate s.inputs x])
        ∧ t = ({ s with sinkOut := s.sinkOut ++ sent }.withQueue rest).respond rstatOk d)
    (hr : removeFront op s k = .next t) : CommandEffect s t := by
  cases hq : s.q with
  | nil => rw [removeFront_nil hq] at hr; exact .of_raise h hr
  | cons x rest =>
    rw [removeFront_cons hq] at hr
    obtain ⟨d, sent, hs, ht⟩ := hk x rest hq hr
    exact .done h rest s (.inl ⟨rfl, by simp [hq]⟩) sent hs d ht

/-- The inversion lemma of `exec`. -/
theorem exec_effect {i : Instr} {s t : State} (h : exec i s = .next t) : CommandEffect s t := by
  cases i with
  | len =>
    obtain ⟨hh, rfl⟩ | ⟨hh, h⟩ := unlessHalted_next h
    · exact .refused hh rfl
    · exact .of_ok hh (q := s.q) (Nat.le_refl _) h
  | cnt =>
    obtain ⟨hh, rfl⟩ | ⟨hh, h⟩ := unlessHalted_next h
    · exact .refused hh rfl
    · exact .of_ok hh (q := s.q) (Nat.le_refl _) h
  | row colors pal prio =>
    obtain ⟨hh, rfl⟩ | ⟨hh, h⟩ := unlessHalted_next h
    · exact .refused hh rfl
    · exact .of_appendBack hh h
  | ovl colors pal prio oam ofs =>
    obtain ⟨hh, rfl⟩ | ⟨hh, h⟩ := unlessHalted_next h
    · exact .refused hh rfl
    · split at h
      · exact .faulted hh _ _ _ _ s.forgetQueue (.inr rfl) (raise_next h)
      · exact .of_ok hh (overlay_length ‹_›).le h
  | pop =>
    obtain ⟨hh, rfl⟩ | ⟨hh, h⟩ := unlessHalted_next h
    · exact .refused hh rfl
    · exact .of_removeFront hh (fun x rest _ hk => ⟨_, [arbitrate s.inputs x], .inr ⟨x, rfl⟩, ok_next hk⟩) h
  | drop =>
    obtain ⟨hh, rfl⟩ | ⟨hh, h⟩ := unlessHalted_next h
    · exact .refused hh rfl
    · exact .of_removeFront hh (fun x rest _ hk => ⟨0, [], .inl rfl, by rw [ok_next hk]; simp⟩) h
  | deq =>
    obtain ⟨hh, rfl⟩ | ⟨hh, h⟩ := unlessHalted_next h
    · exact .refused hh rfl
    · exact .of_removeFront hh (fun x rest _ hk => ⟨sampleData x, [], .inl rfl, by rw [ok_next hk]; simp⟩) h
  | clr =>
    obtain ⟨hh, rfl⟩ | ⟨hh, h⟩ := unlessHalted_next h
    · exact .refused hh rfl
    · exact .of_ok hh (q := []) (by simp) h
  | rclr =>
    obtain ⟨hh, rfl⟩ | ⟨hh, h⟩ := unlessHalted_next h
    · exact .refused hh rfl
    · exact .of_ok hh (q := []) (by simp) h
  | get idx =>
    obtain ⟨hh, rfl⟩ | ⟨hh, h⟩ := unlessHalted_next h
    · exact .refused hh rfl
    · split at h
      · exact .of_raise hh h
      · exact .of_ok hh (q := s.q) (Nat.le_refl _) h
  | set idx smp =>
    obtain ⟨hh, rfl⟩ | ⟨hh, h⟩ := unlessHalted_next h
    · exact .refused hh rfl
    · split at h
      · exact .of_raise hh h
      · split at h
        · exact .of_raise hh h
        · exact .of_ok hh (q := s.q.set idx _) (by simp) h
  | enq smp =>
    obtain ⟨hh, rfl⟩ | ⟨hh, h⟩ := unlessHalted_next h
    · exact .refused hh rfl
    · split at h
      · exact .of_raise hh h
      · exact .of_appendBack hh h
  | enqb n smp0 smp1 smp2 =>
    obtain ⟨hh, rfl⟩ | ⟨hh, h⟩ := unlessHalted_next h
    · exact .refused hh rfl
    · split at h
      · exact .of_raise hh h
      · exact .of_appendBack hh h

end Sys2Proof.Machine
end

