-- ==== Sys2Proof/Laws/PerInstr.lean ====
section
/-! SUPPORT. Statements made of every instruction as syntax, one lemma per constructor. `OpcodeByte` (R49, R50): the
low byte of the command word is the opcode, with the reserved bits `cmd[7:4]` 0, whatever the operands. -/

namespace Sys2Proof.Laws.OpcodeByte

open Sys2Proof.Bits

/-- R49, R50. -/
def Statement (i : Instr) : Prop := slice (encode i).toNat 3 0 = i.opcode ∧ slice (encode i).toNat 7 4 = 0

/-- Operand fields lie above the opcode byte. -/
theorem of_byte_aligned (i : Instr) (k : Nat) (ho : i.opcode < 16) (h : i.operandBits = 256 * k) : Statement i := by
  simp only [Statement, encode, slice, BitVec.toNat_ofNat, h]
  omega

theorem len : Statement .len := of_byte_aligned _ 0 (by decide) rfl
theorem row (colors : List ColorIdx) (pal : PalIdx) (prio : Bool) : Statement (.row colors pal prio) :=
  of_byte_aligned _ (packLanes colors + pal.val * 2 ^ 16 + bit prio * 2 ^ 19) (by simp [Instr.opcode])
    (by simp only [Instr.operandBits]; omega)
theorem ovl (colors : List ColorIdx) (pal : PalIdx) (prio : Bool) (oam : OamIdx) (ofs : Int) :
    Statement (.ovl colors pal prio oam ofs) :=
  of_byte_aligned _
    (packLanes colors + pal.val * 2 ^ 16 + bit prio * 2 ^ 19 + oam.val * 2 ^ 20 + twos16 ofs * 2 ^ 28)
    (by simp [Instr.opcode]) (by simp only [Instr.operandBits]; omega)
theorem pop : Statement .pop := of_byte_aligned _ 0 (by decide) rfl
theorem drop : Statement .drop := of_byte_aligned _ 0 (by decide) rfl
theorem clr : Statement .clr := of_byte_aligned _ 0 (by decide) rfl
theorem cnt : Statement .cnt := of_byte_aligned _ 0 (by decide) rfl
theorem get (idx : Nat) : Statement (.get idx) :=
  of_byte_aligned _ idx (by simp [Instr.opcode]) (by simp only [Instr.operandBits]; omega)
theorem set (idx : Nat) (smp : SampleWord) : Statement (.set idx smp) :=
  of_byte_aligned _ (idx + smp.toNat * 2 ^ 16) (by simp [Instr.opcode]) (by simp only [Instr.operandBits]; omega)
theorem enq (smp : SampleWord) : Statement (.enq smp) :=
  of_byte_aligned _ smp.toNat (by simp [Instr.opcode]) (by simp only [Instr.operandBits]; omega)
theorem enqb (n : Fin 4) (smp0 smp1 smp2 : SampleWord) : Statement (.enqb n smp0 smp1 smp2) :=
  of_byte_aligned _ (smp0.toNat + smp1.toNat * 2 ^ 16 + smp2.toNat * 2 ^ 32 + n.val * 2 ^ 48) (by simp [Instr.opcode])
    (by simp only [Instr.operandBits]; omega)
theorem deq : Statement .deq := of_byte_aligned _ 0 (by decide) rfl
theorem rclr : Statement .rclr := of_byte_aligned _ 0 (by decide) rfl

end Sys2Proof.Laws.OpcodeByte
end

