-- ==== Sys2Proof/Laws/RegisterBank.lean ====
section
/-! SUPPORT. What the operations of the environment's register bank can do (R46, R47). -/

namespace Sys2Proof.Machine

/-- A write leaves a register's identity, address and access mode as they are. -/
@[simp] theorem BankRegister.write_identity (p : Params) (v : Nat) (r : BankRegister) :
    (r.write p v).identity = r.identity := by
  unfold BankRegister.write; split <;> rfl

@[simp] theorem BankRegister.write_addr (p : Params) (v : Nat) (r : BankRegister) : (r.write p v).addr = r.addr := by
  unfold BankRegister.write; split <;> rfl

@[simp] theorem BankRegister.write_mode (p : Params) (v : Nat) (r : BankRegister) : (r.write p v).mode = r.mode := by
  unfold BankRegister.write; split <;> rfl

/-- A write of the bank adds and removes no register. -/
theorem writeFirst_identities (p : Params) (name : RegName) (v : Nat) (rs : List BankRegister) :
    (writeFirst p name v rs).map (·.identity) = rs.map (·.identity) := by
  induction rs with
  | nil => rfl
  | cons r rest ih =>
    unfold writeFirst
    split <;> simp [ih]

/-- Every register after a write was there before, or is one written. -/
theorem mem_writeFirst {p : Params} {name : RegName} {v : Nat} {rs : List BankRegister} {r : BankRegister}
    (h : r ∈ writeFirst p name v rs) : r ∈ rs ∨ ∃ r₀ ∈ rs, r = r₀.write p v := by
  induction rs with
  | nil => exact .inl h
  | cons r₁ rest ih =>
    unfold writeFirst at h
    split at h
    · rcases List.mem_cons.mp h with rfl | h
      · exact .inr ⟨r₁, List.mem_cons_self, rfl⟩
      · exact .inl (List.mem_cons_of_mem _ h)
    · rcases List.mem_cons.mp h with rfl | h
      · exact .inl List.mem_cons_self
      · rcases ih h with h | ⟨r₀, hr₀, e⟩
        · exact .inl (List.mem_cons_of_mem _ h)
        · exact .inr ⟨r₀, List.mem_cons_of_mem _ hr₀, e⟩

/-- A read of the bank answers a next state that differs in the last answer alone (and in the model's counter where
the answer is a free value), or faults on an unknown identity. -/
theorem bankReadStep_next {name : RegName} {s t : State} (h : bankReadStep name s = .next t) :
    ∃ v f, t = { s with bank := { s.bank with readData := some v }, free := f } := by
  unfold bankReadStep at h
  split at h
  · exact ⟨_, s.free, by simpa [State.withBank] using h.symm⟩
  · split at h
    · cases h
    · exact ⟨_, _, by simpa using h.symm⟩

/-- A write of the bank answers a next state that differs in the registers alone. -/
theorem bankWriteStep_next {name : RegName} {v : Nat} {s t : State} (h : bankWriteStep name v s = .next t) :
    t = s ∨ t = s.withBank { s.bank with registers := writeFirst s.cfg name v s.bank.registers } := by
  unfold bankWriteStep at h
  split at h
  · exact .inr (by simpa using h.symm)
  · split at h
    · cases h
    · exact .inl (by simpa using h.symm)

end Sys2Proof.Machine
end

