-- ==== Sys2Proof/Laws/Step.lean ====
section
/-! SUPPORT. What a step can do: one inversion lemma over all events of the host's stream. -/

namespace Sys2Proof.Machine

open Sys2Proof.Bits

theorem step_idle {s : State} (h : s.inbox = []) : step s = .next s := by
  simp [step, stepOnce, h]

theorem step_event {s : State} {e : PortEvent} {rest : List PortEvent} (h : s.inbox = e :: rest) :
    step s = portStep e (s.withInbox rest) := by
  simp [step, stepOnce, h]

/-- A presented word has the effect of a command (R87). -/
theorem present_effect {w : Cmd} {s t : State} (h : present w s = .next t) : CommandEffect s t := by
  unfold present at h
  split at h
  · exact exec_effect h
  · obtain ⟨hh, rfl⟩ | ⟨hh, h⟩ := unlessHalted_next h
    · exact .refused hh rfl
    · exact .of_raise hh h

/-- Everything a step can answer. -/
inductive StepEffect (s t : State) : Prop where
  | idle (h : s.inbox = []) (ht : t = s)
  | command (w : Cmd) (rest : List PortEvent) (h : s.inbox = .command w :: rest)
      (ht : CommandEffect (s.withInbox rest) t)
  | reset (rest : List PortEvent) (h : s.inbox = .reset :: rest) (ht : t = (s.withInbox rest).resetBlock)
  | enable (b : Bool) (rest : List PortEvent) (h : s.inbox = .driveBgEn b :: rest)
      (ht : t = (s.withInbox rest).withInputs { s.inputs with bgEn := b })
  | palette (bank : BankName) (pal : PalIdx) (color : ColorIdx) (c : Color) (rest : List PortEvent)
      (h : s.inbox = .drivePal bank pal color c :: rest)
      (ht : t = (s.withInbox rest).withInputs (drivePalette s.inputs bank pal color c))
  | bankRead (name : RegName) (rest : List PortEvent) (h : s.inbox = .bankRead name :: rest)
      (ht : bankReadStep name (s.withInbox rest) = .next t)
  | bankWrite (name : RegName) (v : Nat) (rest : List PortEvent) (h : s.inbox = .bankWrite name v :: rest)
      (ht : bankWriteStep name v (s.withInbox rest) = .next t)

/-- The inversion lemma of `step`. -/
theorem step_effect {s t : State} (h : step s = .next t) : StepEffect s t := by
  cases hb : s.inbox with
  | nil => rw [step_idle hb] at h; exact .idle hb (by simpa using h.symm)
  | cons e rest =>
    rw [step_event hb] at h
    cases e with
    | command w => exact .command w rest hb (present_effect h)
    | reset => exact .reset rest hb (by simpa [portStep] using h.symm)
    | driveBgEn b => exact .enable b rest hb (by simpa [portStep] using h.symm)
    | drivePal bank pal color c => exact .palette bank pal color c rest hb (by simpa [portStep] using h.symm)
    | bankRead name => exact .bankRead name rest hb h
    | bankWrite name v => exact .bankWrite name v rest hb h
    | concurrent w₁ w₂ => cases h
    | unstable w => cases h

end Sys2Proof.Machine
end

