-- ==== Sys2Proof/Tests/Slice0.lean ====
section
/-! SUPPORT. Tests of the model. Expected values come from the spec: the words of R66, R67 and the examples of the
instruction rules, and the tables of `95_test_vectors.md` (the section is named at each group). -/

namespace Sys2Proof.Tests

open Sys2Proof.Machine Sys2Proof.Safety

/-! ### Helpers -/

/-- The test palette banks of `95_test_vectors.md` section 0: `BgPal(p, c) = 4p + c`, `ObjPal(p, c) = 0x100 + 4p + c`. -/
def testInputs (bgEn : Bool) : Inputs :=
  { bgEn := bgEn
    bgPal := Vector.ofFn fun k => k.val
    objPal := Vector.ofFn fun k => 0x100 + k.val }

/-- The reset state of the vectors, with a queue and a capacity. -/
def blockWith (q : List Sample) (cap : Nat) : State :=
  { State.resetWith Params.standard (testInputs true) with q := q, cap := cap }

/-- The block with the parameters a vector states. -/
def smallBlock (maxCap initCap : Nat) (q : List Sample) (cap : Nat) : State :=
  { State.resetWith { Params.standard with maxCap := maxCap, initCap := initCap } (testInputs true) with q := q, cap := cap }

/-- One step of a block to which a command word is presented. -/
def stepWord (s : State) (w : Nat) : Result := step (s.withFetchWord 64 w)

/-- The response of a next state. -/
def responseOf : Result → Option (Nat × Nat)
  | .next s => s.resp.map fun r => (r.rstat.toNat, r.rdata.toNat)
  | _ => none

/-- The queue, as sample words, and the capacity of a next state. -/
def queueOf : Result → Option (List Nat × Nat)
  | .next s => some (s.q.map fun x => (encodeSample x).toNat, s.cap)
  | _ => none

/-- FSTAT, FINDEX and FCOUNT of a next state. -/
def faultOf : Result → Option (Nat × Nat × Nat)
  | .next s => some (s.fstat.toNat, s.findex.toNat, s.fcount.toNat)
  | _ => none

/-- The sink of a next state. -/
def sinkOf : Result → Option (List Nat)
  | .next s => some s.sinkOut
  | _ => none

/-- `{c,p,ORD}`, `{c,p,BGP}` and `{c,p,SPR(o)}` of R66. -/
def ord (c : ColorIdx) (p : PalIdx) : Sample := { color := c, pal := p, tag := .ordBg }
/-- A background-priority sample. -/
def bgp (c : ColorIdx) (p : PalIdx) : Sample := { color := c, pal := p, tag := .bgPrio }
/-- A sprite sample. -/
def spr (c : ColorIdx) (p : PalIdx) (o : OamIdx) : Sample := { color := c, pal := p, tag := .sprite o }

/-- The row of R78's example, queued. -/
def exampleRow : List Sample := [ord 1 0, ord 2 0, ord 3 0, ord 0 0, ord 1 0, ord 2 0, ord 3 0, ord 0 0]

/-! ### WellFormed refuses each ill-formed form -/

theorem test_wf_refuses_short_row : (Instr.row [1, 2, 3] 0 false).wellFormed = false := by decide
theorem test_wf_refuses_long_overlay :
    (Instr.ovl [0, 0, 0, 0, 0, 0, 0, 0, 0] 0 false 0 0).wellFormed = false := by decide
theorem test_wf_refuses_offset_above :
    (Instr.ovl [0, 0, 0, 0, 0, 0, 0, 0] 0 false 0 32768).wellFormed = false := by decide
theorem test_wf_refuses_offset_below :
    (Instr.ovl [0, 0, 0, 0, 0, 0, 0, 0] 0 false 0 (-32769)).wellFormed = false := by decide
theorem test_wf_refuses_get_index : (Instr.get 65536).wellFormed = false := by decide
theorem test_wf_refuses_set_index : (Instr.set 65536 0).wellFormed = false := by decide
theorem test_wf_refuses_unused_slot : (Instr.enqb 1 0 1 0).wellFormed = false := by decide
theorem test_params_refuse_a_wide_encoding :
    ({ Params.standard with color := .table [0x8000] } : Params).legal = false
      ∧ ({ Params.standard with color := .table [] } : Params).legal = false := by decide
theorem test_wf_accepts_extremes :
    (Instr.ovl [0, 0, 0, 0, 0, 0, 0, 0] 0 false 0 (-32768)).wellFormed = true
      ∧ (Instr.get 65535).wellFormed = true ∧ (Instr.enqb 3 1 2 3).wellFormed = true := by decide

/-! ### Decoding: one word per constructor, from the table of `95_test_vectors.md` 2.6 -/

theorem test_decode_len : decodeTableWord 64 0x0000000000000001 = some .len := by decide
theorem test_decode_row :
    decodeTableWord 64 0x0000000000393902 = some (.row [1, 2, 3, 0, 1, 2, 3, 0] 0 false) := by decide
theorem test_decode_row_prio :
    decodeTableWord 64 0x000000000FFFFF02 = some (.row [3, 3, 3, 3, 3, 3, 3, 3] 7 true) := by decide
theorem test_decode_ovl :
    decodeTableWord 64 0x000FFFFFFF403903 = some (.ovl [1, 2, 3, 0, 0, 0, 0, 1] 7 true 255 (-1)) := by decide
theorem test_decode_ovl_offset :
    decodeTableWord 64 0x0007FFF000000103 = some (.ovl [1, 0, 0, 0, 0, 0, 0, 0] 0 false 0 32767) := by decide
theorem test_decode_pop : decodeTableWord 64 0x0000000000000004 = some .pop := by decide
theorem test_decode_drop : decodeTableWord 64 0x0000000000000005 = some .drop := by decide
theorem test_decode_clr : decodeTableWord 64 0x0000000000000006 = some .clr := by decide
theorem test_decode_cnt : decodeTableWord 64 0x0000000000000008 = some .cnt := by decide
theorem test_decode_get : decodeTableWord 64 0x0000000000FFFF09 = some (.get 0xFFFF) := by decide
theorem test_decode_set : decodeTableWord 64 0x00000000D700010A = some (.set 1 0x00D7) := by decide
theorem test_decode_enq : decodeTableWord 64 0x000000000000290B = some (.enq 0x0029) := by decide
theorem test_decode_enqb_two : decodeTableWord 64 0x020000001F00000C = some (.enqb 2 0 0x001F 0) := by decide
theorem test_decode_enqb_three : decodeTableWord 64 0x030003000200010C = some (.enqb 3 1 2 3) := by decide
theorem test_decode_deq : decodeTableWord 64 0x000000000000000D = some .deq := by decide
theorem test_decode_rclr : decodeTableWord 64 0x000000000000000E = some .rclr := by decide

/-- The name under which a word is refused. -/
def refusal (w : Cmd) : Option DecodeError :=
  match decode w with
  | .ok _ => none
  | .error e => some e

/-- Rows 1 to 13 of `95_test_vectors.md` 2.5. -/
theorem test_decode_refuses_opcodes :
    [0x0, 0x7, 0xFFFFFFFFFFFFFFFF].map refusal
      = [some .reservedOpcode, some .reservedOpcode, some .reservedOpcode] := by decide
theorem test_decode_refuses_reserved_bits :
    ([0x0000000000000011, 0x8000000000000006, 0x0000000010393902, 0x001000001500F003, 0x0000000001000009,
      0x000001000000000A, 0x000000000100000B, 0x040000000000000C].map refusal).all (· == some .reservedBits) = true := by
  decide
theorem test_decode_refuses_unused_slots :
    [0x010000001F00000C, 0x010000000100600C].map refusal = [some .unusedSlot, some .unusedSlot] := by decide

/-- The encoder writes the same words. -/
theorem test_encode_words :
    [encode (.row [1, 2, 3, 0, 1, 2, 3, 0] 0 false), encode (.ovl [1, 2, 3, 0, 0, 0, 0, 1] 7 true 255 (-1)),
      encode (.set 1 0x00D7), encode (.enqb 3 1 2 3)]
      = [0x0000000000393902, 0x000FFFFFFF403903, 0x00000000D700010A, 0x030003000200010C] := by decide

/-! ### Sample words (`95_test_vectors.md` 2.6) -/

theorem test_sample_words :
    [ord 0 0, ord 3 7, bgp 1 2, bgp 3 7, spr 0 0 0, spr 3 5 1, spr 2 0 255, spr 3 7 255].map encodeSample
      = [0x0000, 0x001F, 0x0029, 0x003F, 0x0040, 0x00D7, 0x7FC2, 0x7FDF] := by decide
theorem test_sample_words_refused :
    ([0x0060, 0x007F, 0x8000, 0x0080, 0x00A0, 0xFFDF] : List SampleWord).all (fun s => decodeSample s == none) = true := by
  decide
theorem test_sample_words_decode :
    [decodeSample 0x00D7, decodeSample 0x0029, decodeSample 0x7FC2]
      = [some (spr 3 5 1), some (bgp 1 2), some (spr 2 0 255)] := by decide

/-! ### One step per command -/

/-- R77's example: eight samples queued. -/
theorem test_len : responseOf (stepWord (blockWith exampleRow 16) 0x1) = some (0, 8) := by decide
/-- R69's example. -/
theorem test_cnt : responseOf (stepWord (blockWith exampleRow 16) 0x8) = some (0, 8) := by decide
/-- R78's example. -/
theorem test_row :
    queueOf (stepWord (blockWith [] 16) 0x0000000000393902) = some ([1, 2, 3, 0, 1, 2, 3, 0], 16) := by decide
/-- `95_test_vectors.md` 2.1.c: growth more than doubles. -/
theorem test_row_grows :
    queueOf (stepWord (smallBlock 32768 1 [bgp 3 3] 1) 0x0000000000555502)
      = some ([0x2F, 1, 1, 1, 1, 1, 1, 1, 1], 16) := by decide
/-- R81's example. -/
theorem test_ovl :
    queueOf (stepWord (blockWith exampleRow 16) 0x000000001500F003)
      = some ([1, 2, 0xD7, 0xD7, 1, 2, 3, 0], 16) := by decide
/-- `95_test_vectors.md` 2.3.e: the lowest faulting lane is reported. -/
theorem test_ovl_fault :
    faultOf (stepWord (blockWith exampleRow 16) 0x0000003042041003) = some (0x0347, 0xFFFFFFFF, 8) := by decide
/-- R84's example. -/
theorem test_pop :
    responseOf (stepWord (blockWith [spr 3 5 1, ord 1 0] 16) 0x4) = some (0, 0x117)
      ∧ sinkOf (stepWord (blockWith [spr 3 5 1, ord 1 0] 16) 0x4) = some [0x117] := by decide
/-- R84 under a given `colorBits` (R7): the sink receives the color, RDATA its encoding. -/
theorem test_pop_encoded :
    let s := { blockWith [ord 1 0] 16 with cfg := { Params.standard with color := .table [0x10, 0x20, 0x30, 0x40] } }
    responseOf (stepWord s 0x4) = some (0, 0x20) ∧ sinkOf (stepWord s 0x4) = some [1] := by decide
/-- `95_test_vectors.md` 2.5 row 25. -/
theorem test_pop_empty : faultOf (stepWord (blockWith [] 16) 0x4) = some (0x0409, 0, 0) := by decide
/-- R85's example. -/
theorem test_drop :
    queueOf (stepWord (blockWith [ord 1 0, ord 2 0] 16) 0x5) = some ([2], 16)
      ∧ sinkOf (stepWord (blockWith [ord 1 0, ord 2 0] 16) 0x5) = some [] := by decide
/-- R86's example: the capacity is retained. -/
theorem test_clr : queueOf (stepWord (blockWith exampleRow 32) 0x6) = some ([], 32) := by decide
/-- R70's example. -/
theorem test_get : responseOf (stepWord (blockWith exampleRow 16) 0x209) = some (0, 3) := by decide
/-- `95_test_vectors.md` 2.5 row 22. -/
theorem test_get_fault : faultOf (stepWord (blockWith exampleRow 16) 0xFFFF09) = some (0x0907, 0xFFFF, 8) := by decide
/-- R71's example. -/
theorem test_set :
    queueOf (stepWord (blockWith [ord 0 0, ord 1 0] 16) 0x00000000D700010A) = some ([0, 0xD7], 16) := by decide
/-- `95_test_vectors.md` 2.5 row 19: the sample is checked before the index. -/
theorem test_set_fault : faultOf (stepWord (blockWith [] 16) 0x000000006000050A) = some (0x0A05, 0x60, 0) := by decide
/-- R72's example, on a full buffer of capacity 4 (`95_test_vectors.md` 2.1.a). -/
theorem test_enq :
    queueOf (stepWord (blockWith [ord 1 0, ord 2 0, ord 3 0, ord 0 1] 4) 0x000000000000290B)
      = some ([1, 2, 3, 4, 0x29], 8) := by decide
/-- `95_test_vectors.md` 2.1.f. -/
theorem test_enq_capacity :
    faultOf (stepWord (smallBlock 8 8 exampleRow 8) 0x000000000000010B) = some (0x0B0B, 9, 8) := by decide
/-- R73's example. -/
theorem test_enqb : queueOf (stepWord (blockWith [] 16) 0x020000001F00000C) = some ([0, 0x1F], 16) := by decide
/-- `95_test_vectors.md` 2.5 row 18. -/
theorem test_enqb_fault : faultOf (stepWord (blockWith [] 16) 0x030060000100010C) = some (0x0C45, 0x60, 0) := by decide
/-- R74's example. -/
theorem test_deq :
    responseOf (stepWord (blockWith [ord 1 0, ord 2 0] 16) 0xD) = some (0, 1)
      ∧ queueOf (stepWord (blockWith [ord 1 0, ord 2 0] 16) 0xD) = some ([2], 16) := by decide
/-- `95_test_vectors.md` 2.5 row 24. -/
theorem test_deq_empty : faultOf (stepWord (blockWith [] 16) 0xD) = some (0x0D09, 0, 0) := by decide
/-- R75's example. -/
theorem test_rclr : queueOf (stepWord (blockWith exampleRow 32) 0xE) = some ([], 32) := by decide

/-! ### Illegal words, halting, overlays at other parameters -/

/-- `95_test_vectors.md` 2.5 row 7. -/
theorem test_illegal : faultOf (stepWord (blockWith [] 16) 0x001000001500F003) = some (0x0303, 0x1500F003, 0) := by decide
/-- `95_test_vectors.md` 2.5, halting: a CLR after a fault is refused and the first fault stays. -/
theorem test_halted :
    let s := { blockWith exampleRow 16 with fstat := 0x0907, findex := 8, fcount := 8 }
    responseOf (stepWord s 0x6) = some (7, 0) ∧ faultOf (stepWord s 0x0) = some (0x0907, 8, 8) := by decide
/-- `95_test_vectors.md` 2.3.c: OVL_START = FROM_OFFSET. -/
theorem test_ovl_from_offset :
    queueOf (stepWord { blockWith exampleRow 16 with cfg := { Params.standard with ovlStart := .fromOffset } }
      0x0000001042000A03) = some ([0x24A, 2, 3, 0, 1, 2, 3, 0], 16) := by decide
/-- `95_test_vectors.md` 1.5 scenario 5: the background disabled. -/
theorem test_ovl_background_disabled :
    queueOf (stepWord { blockWith [ord 0 0, ord 3 0, bgp 0 0, bgp 3 0] 16 with inputs := testInputs false }
      0x000000009E000903) = some ([0x4D9, 0x4DA, 0x20, 0x23], 16) := by decide

/-! ### The priority mux: the truth table of `95_test_vectors.md` 2.2, rank 3 -/

/-- The four columns (bgEn, prio) = (1,0), (1,1), (0,0), (0,1) of an old sample. -/
def muxRow (old : Sample) : List Bool := [mux old true false 3, mux old true true 3, mux old false false 3, mux old false true 3]

theorem test_mux_background :
    [ord 0 1, ord 2 1, bgp 0 1, bgp 2 1].map muxRow
      = [[true, true, true, true], [true, false, true, true], [true, true, true, true], [false, false, true, true]] := by
  decide
theorem test_mux_sprite :
    [spr 2 1 2, spr 2 1 3, spr 2 1 4, spr 0 1 4].map muxRow
      = [[false, false, false, false], [false, false, false, false], [true, true, true, true], [true, true, true, true]] := by
  decide

/-! ### The environment's register bank (R46, R47) -/

/-- A bank with a write-only register 1 at 0xFF40 and a read-only register 2. -/
def bankBlock (events : List PortEvent) : State :=
  { blockWith [] 16 with
    bank := { registers := [⟨1, 0xFF40, .writeOnly, 5⟩, ⟨2, 0xFF41, .readOnly, 6⟩], readData := none }, inbox := events }

/-- A write-only register reads as all ones at REG_W = 8. -/
theorem test_bank_read_write_only :
    (match step (bankBlock [.bankRead (.byIdentity 1)]) with
     | .next s => s.bank.readData
     | _ => none) = some 0xFF := by decide
/-- A write to a read-only register changes nothing, and an unknown identity faults. -/
theorem test_bank_write_read_only :
    step (bankBlock [.bankWrite (.byAddress 0xFF41) 9]) = .next (bankBlock []) := by rfl
theorem test_bank_unknown :
    step (bankBlock [.bankRead (.byIdentity 3)]) = .fault (.unknownRegister 3) := by rfl

/-! ### The assembler (R66, R67) -/

/-- R66's example, R67's padding, and the samples of R71's and R73's examples, as character lists. -/
theorem test_assemble_row :
    Asm.assemble "ROW 1 2 3 0 1 2 3 0, pal=0".toList = some [.row [1, 2, 3, 0, 1, 2, 3, 0] 0 false] := by decide
theorem test_assemble_ovl :
    Asm.assemble "OVL 3, ofs=-6, pal=2, oam=0x0C, prio ; padded".toList
      = some [.ovl [3, 0, 0, 0, 0, 0, 0, 0] 2 true 12 (-6)] := by decide
theorem test_parse_set :
    Asm.parse [.key .set, .num 1, .comma, .lbrace, .num 3, .comma, .num 5, .comma, .key .spr, .lparen, .num 1, .rparen, .rbrace]
      = some (.set 1 0x00D7) := by decide

end Sys2Proof.Tests
end

