-- ==== Sys2Proof/Tests/Witnesses.lean ====
section
/-! SUPPORT. For every statement of Obligations.lean that has hypotheses, a concrete state and operands that meet them
all, clause by clause at a boundary of its range. -/

namespace Sys2Proof.Tests

open Sys2Proof.Bits Sys2Proof.Machine Sys2Proof.Safety Sys2Proof.Claims

/-! ### States -/

/-- The block of MAX_CAP = 8, full. -/
def fullBlock : State := smallBlock 8 8 exampleRow 8

/-- A block halted by a GET out of range. -/
def haltedBlock : State := { blockWith exampleRow 16 with fstat := 0x0907, findex := 8, fcount := 8 }

/-- A state with events waiting. -/
def withEvents (s : State) (es : List PortEvent) : State := { s with inbox := es }

/-- The test palettes are colors of 15 bits. -/
theorem testInputs_fit (p : Params) (hc : p.color = .unsigned) (hw : p.colorW = 15) (b : Bool) :
    (∀ c ∈ (testInputs b).bgPal, IsColor p c) ∧ ∀ c ∈ (testInputs b).objPal, IsColor p c := by
  constructor <;> intro c h <;> obtain ⟨i, hi, rfl⟩ := Vector.mem_iff_getElem.mp h <;>
    refine (isColor_unsigned hc).mpr ?_ <;> simp only [testInputs, Vector.getElem_ofFn, hw] <;> omega

/-- A block that differs from the reset state in its queue and capacity alone meets the invariant where those do. -/
theorem inv_of_block (p : Params) (q : List Sample) (cap : Nat) (es : List PortEvent) (hl : p.legal = true)
    (hc : isPow2 cap = true) (hq : q.length ≤ cap) (hm : cap ≤ p.maxCap) (hi : p.initCap ≤ cap)
    (ht : p.color = .unsigned) (hw : p.colorW = 15) (hd : ∀ bank pal color c, .drivePal bank pal color c ∉ es) :
    Inv { State.resetWith p (testInputs true) with q := q, cap := cap, inbox := es } where
  params := hl
  capPow2 := hc
  countLeCap := hq
  capLeMax := hm
  initLeCap := hi
  status := by show FStat.legal 0 = true; decide
  unfaulted := fun _ => ⟨rfl, rfl, rfl⟩
  response := trivial
  palettes := testInputs_fit p ht hw true
  driven := fun bank pal color c h => absurd h (hd bank pal color c)
  sink := fun _ h => absurd h List.not_mem_nil
  bank := ⟨fun _ h => absurd h List.not_mem_nil, fun _ h => by cases h⟩

theorem inv_blockWith_row : Inv (blockWith exampleRow 16) :=
  inv_of_block Params.standard exampleRow 16 [] (by decide) (by decide) (by decide) (by decide) (by decide) rfl rfl
    (by simp)

theorem inv_fullBlock : Inv fullBlock :=
  inv_of_block { Params.standard with maxCap := 8, initCap := 8 } exampleRow 8 [] (by decide) (by decide) (by decide)
    (by decide) (by decide) rfl rfl
    (by simp)

/-! ### Reset and the invariant -/

theorem witness_ResetGivesTheResetValues : (withEvents haltedBlock [.reset, .command 1]).inbox = .reset :: [.command 1] :=
  rfl

theorem witness_ResetMeetsTheInvariant :
    ({ Params.standard with maxCap := 8, initCap := 8 } : Params).legal = true
      ∧ (∀ c ∈ (testInputs true).bgPal, IsColor { Params.standard with maxCap := 8, initCap := 8 } c)
      ∧ ∀ c ∈ (testInputs true).objPal, IsColor { Params.standard with maxCap := 8, initCap := 8 } c :=
  ⟨by decide, testInputs_fit _ rfl rfl true⟩

theorem witness_EveryStepKeepsTheInvariant :
    Inv (withEvents (blockWith exampleRow 16) [.command 4])
      ∧ ∃ t, step (withEvents (blockWith exampleRow 16) [.command 4]) = .next t :=
  ⟨inv_of_block Params.standard exampleRow 16 [.command 4] (by decide) (by decide) (by decide) (by decide) (by decide)
    rfl rfl
    (by simp), _, rfl⟩

/-- A ROW that doubles the capacity of a full queue. -/
theorem witness_CapacityStaysAPowerOfTwoAndNeverShrinks :
    Inv (withEvents (smallBlock 16 8 exampleRow 8) [.command 2])
      ∧ ∃ t, step (withEvents (smallBlock 16 8 exampleRow 8) [.command 2]) = .next t
          ∧ nextEvent (withEvents (smallBlock 16 8 exampleRow 8) [.command 2]) ≠ some .reset ∧ t.cap ≠ 8 :=
  ⟨inv_of_block { Params.standard with maxCap := 16, initCap := 8 } exampleRow 8 [.command 2] (by decide) (by decide)
    (by decide) (by decide) (by decide) rfl rfl
    (by simp), _, rfl, by decide, by decide⟩

theorem witness_CapacityOutputEqualsTheCapacity :
    Inv fullBlock ∧ ({ Params.standard with initCap := 32768 } : Params).legal = true :=
  ⟨inv_fullBlock, by decide⟩

/-! ### Encoding -/

theorem witness_DecodingAnEncodedCommandGivesItBack :
    ([.ovl [3, 3, 3, 3, 3, 3, 3, 3] 7 true 255 (-32768), .ovl [0, 0, 0, 0, 0, 0, 0, 0] 0 false 0 32767, .get 65535,
      .set 65535 0xFFFF, .enqb 0 0 0 0, .enqb 3 0xFFFF 0xFFFF 0xFFFF] : List Instr).all Instr.wellFormed = true := by
  decide

theorem witness_EncodingADecodedWordGivesItBack :
    decode 0x000FFFFFFFFFFF03 = .ok (.ovl [3, 3, 3, 3, 3, 3, 3, 3] 7 true 255 (-1)) := by rfl

theorem witness_DecodingFollowsTheMatchAndMaskTable :
    decode 0x03FFFFFFFFFFFF0C = .ok (.enqb 3 0xFFFF 0xFFFF 0xFFFF)
      ∧ (0x03FFFFFFFFFFFF0C : Cmd) &&& 0xFC000000000000FF = 0x000000000000000C := ⟨by rfl, by decide⟩

theorem witness_AWordIsIllegalExactlyInTheThreeCases :
    [0x0000000000000000, 0x0000000000000011, 0x010000000100000C].map refusal
        = [some .reservedOpcode, some .reservedBits, some .unusedSlot] ∧ InService (blockWith [] 16) := by
  decide

theorem witness_OperandlessCommandsDecodeFromTheirOpcode :
    [0x1, 0x4, 0x5, 0x6, 0x8, 0xD, 0xE].all (fun op =>
      slice (BitVec.ofNat 64 op).toNat 3 0 == op && slice (BitVec.ofNat 64 (op + 2 ^ 63)).toNat 3 0 == op) = true := by
  decide

theorem witness_SampleWordsCarryEverySample : decodeSample 0x7FDF = some (spr 3 7 255) := by decide

theorem witness_ParsingAPrintedLineGivesTheCommandBack :
    ([.len, .pop, .drop, .clr, .cnt, .deq, .rclr, .row [0, 1, 2, 3, 3, 2, 1, 0] 7 true,
      .ovl [3, 0, 0, 0, 0, 0, 0, 3] 0 false 255 (-32768), .get 65535, .set 0 0x7FDF, .enq 0x003F, .enqb 0 0 0 0,
      .enqb 1 0x001F 0 0, .enqb 3 1 0x29 0xD7] : List Instr).all
      (fun i => i.wellFormed && (Asm.print i).isSome) = true := by
  decide

/-! ### The port and the step -/

theorem witness_AStepRunsTheDecodedCommand :
    (withEvents (blockWith [] 16) [.command 0x209, .reset]).inbox = .command 0x209 :: [.reset]
      ∧ decode 0x209 = .ok (.get 2) ∧ decode (BitVec.ofNat 64 0x209) = .ok (.get 2) := ⟨rfl, by rfl, by rfl⟩

theorem witness_CommandsTakeEffectInTheOrderIssued :
    (∀ i ∈ [Instr.row [1, 2, 3, 0, 1, 2, 3, 0] 0 false, .pop, .get 65535], i.wellFormed = true)
      ∧ (blockWith [] 16).inbox = [] := by
  decide

theorem witness_EveryPresentedCommandHasOneOfFourOutcomes :
    (withEvents (blockWith [] 16) [.concurrent 4 5]).inbox = .concurrent 4 5 :: [] := rfl

theorem witness_InputsChangeOnlyBetweenCommands :
    (withEvents (blockWith [] 16) [.driveBgEn false]).inbox = .driveBgEn false :: []
      ∧ (withEvents (blockWith [] 16) [.drivePal .bg 7 3 0x7FFF]).inbox = .drivePal .bg 7 3 0x7FFF :: []
      ∧ (withEvents (blockWith [] 16) [.drivePal .obj 0 0 0]).inbox = .drivePal .obj 0 0 0 :: []
      ∧ (∃ t, step (withEvents (blockWith [] 16) [.driveBgEn false]) = .next t ∧ t.inputs ≠ (blockWith [] 16).inputs)
      ∧ (withEvents (blockWith [] 16) [.unstable 4]).inbox = .unstable 4 :: [] :=
  ⟨rfl, rfl, rfl, ⟨_, rfl, by decide⟩, rfl⟩

/-! ### Faults -/

/-- A fault of each code, from its last row of values: an illegal word, an ill-formed sample in slot 2, an overlay's
lane 7, an empty queue, an insert one beyond MAX_CAP. -/
theorem witness_FaultEntryRecordsTheFaultAndKeepsTheRest :
    InService fullBlock ∧ InService (blockWith [] 16)
      ∧ (∃ t, present 0xF fullBlock = .next t ∧ t.halted = true ∧ FStat.fcode t.fstat = 1)
      ∧ (∃ t, present 0x038000000000000C fullBlock = .next t ∧ t.halted = true ∧ FStat.fcode t.fstat = 2
          ∧ FStat.flane t.fstat = 2)
      ∧ (∃ t, present 0x000FFFF000400003 fullBlock = .next t ∧ t.halted = true ∧ FStat.fcode t.fstat = 3
          ∧ FStat.flane t.fstat = 7)
      ∧ (∃ t, present 0x4 (blockWith [] 16) = .next t ∧ t.halted = true ∧ FStat.fcode t.fstat = 4)
      ∧ ∃ t, present 0xB fullBlock = .next t ∧ t.halted = true ∧ FStat.fcode t.fstat = 5 :=
  ⟨by decide, by decide, ⟨_, rfl, by decide, by decide⟩, ⟨_, rfl, by decide, by decide, by decide⟩,
    ⟨_, rfl, by decide, by decide, by decide⟩, ⟨_, rfl, by decide, by decide⟩, ⟨_, rfl, by decide, by decide⟩⟩

theorem witness_AHaltedBlockRefusesEveryCommand :
    haltedBlock.halted = true ∧ (withEvents haltedBlock [.command 0]).halted = true
      ∧ (withEvents haltedBlock [.command 0]).inbox = .command 0 :: [] := by
  decide

theorem witness_OnlyResetReturnsToService :
    (withEvents haltedBlock [.command 6]).halted = true
      ∧ (∃ t, step (withEvents haltedBlock [.command 6]) = .next t)
      ∧ nextEvent (withEvents haltedBlock [.command 6]) ≠ some .reset
      ∧ (∃ t, step (withEvents haltedBlock [.reset]) = .next t)
      ∧ nextEvent (withEvents haltedBlock [.reset]) = some .reset :=
  ⟨by decide, ⟨_, rfl⟩, by decide, ⟨_, rfl⟩, by decide⟩

theorem witness_AnIllegalWordRaisesIllegalCmd :
    InService (blockWith [] 16) ∧ refusal 0xFFFFFFFFFFFFFFFF = some .reservedOpcode := by
  decide

theorem witness_AnIllFormedSampleRaisesIllegalSample :
    InService (blockWith [] 16) ∧ decodeSample 0x60 = none ∧ (2 : Nat) < (3 : Fin 4).val
      ∧ [(0x0001 : SampleWord), 0x0029, 0x8000][2]? = some 0x8000 ∧ decodeSample 0x8000 = none
      ∧ ∀ k' < 2, ∀ smp', [(0x0001 : SampleWord), 0x0029, 0x8000][k']? = some smp' → decodeSample smp' ≠ none := by
  refine ⟨by decide, by decide, by decide, by decide, by decide, ?_⟩
  rintro (_ | _ | _) h smp' hs <;> simp at hs h <;> subst hs <;> decide

/-- GET and SET at the count itself; lane 7 of an overlay whose target is the count, and lane 0 below the front. -/
theorem witness_AnIndexOutsideTheQueueRaisesOutOfRange :
    InService (blockWith exampleRow 16) ∧ (blockWith exampleRow 16).q.length ≤ 8
      ∧ decodeSample 0x00D7 = some (spr 3 5 1)
      ∧ (Shows (blockWith exampleRow 16) [0, 0, 0, 0, 0, 0, 1, 1] (-1) 7
          ∧ ¬ Targets (blockWith exampleRow 16) (-1) 7
          ∧ ∀ j' < 7, Shows (blockWith exampleRow 16) [0, 0, 0, 0, 0, 0, 1, 1] (-1) j' →
              Targets (blockWith exampleRow 16) (-1) j')
      ∧ Shows (blockWith exampleRow 16) [1, 0, 0, 0, 0, 0, 0, 0] 1 0 ∧ ¬ Targets (blockWith exampleRow 16) 1 0 := by
  unfold Shows Targets
  decide

theorem witness_AnEmptyQueueRaisesEmptyQueue : InService (blockWith [] 16) ∧ (blockWith [] 16).q = [] := by decide

/-- One sample short of room for each insert. -/
theorem witness_AnInsertBeyondMaxCapRaisesCapacity :
    InService fullBlock ∧ Inv fullBlock ∧ fullBlock.cfg.maxCap < fullBlock.q.length + 1
      ∧ InService (smallBlock 8 8 [ord 1 0] 8) ∧ Inv (smallBlock 8 8 [ord 1 0] 8)
      ∧ (smallBlock 8 8 [ord 1 0] 8).cfg.maxCap < (smallBlock 8 8 [ord 1 0] 8).q.length + 8
      ∧ decodeSample 0x0001 = some (ord 1 0)
      ∧ ([0x0001, 0x0029, 0x0000].take (1 : Fin 4).val : List SampleWord).map decodeSample = [ord 1 0].map some :=
  ⟨by decide, inv_fullBlock, by decide, by decide,
    inv_of_block { Params.standard with maxCap := 8, initCap := 8 } [ord 1 0] 8 [] (by decide) (by decide) (by decide)
      (by decide) (by decide) rfl rfl
    (by simp), by decide, by decide, by decide⟩

theorem witness_DutiesAreExactlyWhatPreventsFaults :
    InService (blockWith exampleRow 16) ∧ duty (.get 7) (blockWith exampleRow 16) = true
      ∧ duty (.get 8) (blockWith exampleRow 16) = false := by
  decide

/-! ### The ring-buffer commands -/

/-- Exactly enough room, and one sample too many. -/
theorem witness_GrowTakesTheLeastPowerOfTwo :
    (blockWith exampleRow 16).q.length + 8 ≤ (blockWith exampleRow 16).cap
      ∧ (blockWith exampleRow 8).cap < (blockWith exampleRow 8).q.length + 1 ∧ IsNextPow2 (8 + 1) 16 := by
  refine ⟨by decide, by decide, ⟨4, rfl⟩, by decide, fun k hk => ?_⟩
  have h : 3 < k := by
    by_contra hle
    have : 2 ^ k ≤ 2 ^ 3 := Nat.pow_le_pow_right (by omega) (by omega)
    omega
  calc 16 = 2 ^ 4 := rfl
    _ ≤ 2 ^ k := Nat.pow_le_pow_right (by omega) h

theorem witness_CountAndLengthAnswerTheCount : InService (blockWith exampleRow 16) ∧ Inv (blockWith exampleRow 16) :=
  ⟨by decide, inv_blockWith_row⟩

theorem witness_GetAnswersTheSampleAtTheOffset :
    7 < (blockWith exampleRow 16).q.length ∧ InService (blockWith exampleRow 16) := by
  decide

theorem witness_SetReplacesOneSampleAndGetReadsItBack :
    InService (blockWith exampleRow 16) ∧ decodeSample 0x7FC2 = some (spr 2 0 255)
      ∧ 7 < (blockWith exampleRow 16).q.length := by
  decide

/-- The last sample that fits, with and without growth. -/
theorem witness_EnqueueAppendsOneSample :
    InService (smallBlock 16 8 exampleRow 8) ∧ (smallBlock 16 8 exampleRow 8).cfg.legal = true
      ∧ decodeSample 0x0029 = some (bgp 1 2)
      ∧ (smallBlock 8 8 (exampleRow.take 7) 8).q.length + 1 = (smallBlock 8 8 (exampleRow.take 7) 8).cfg.maxCap := by
  decide

theorem witness_EnqueueBatchAppendsItsSamplesInOrder :
    InService (smallBlock 8 8 (exampleRow.take 5) 8) ∧ (smallBlock 8 8 (exampleRow.take 5) 8).cfg.legal = true
      ∧ ([0x0001, 0x0029, 0x00D7].take (3 : Fin 4).val : List SampleWord).map decodeSample
          = [ord 1 0, bgp 1 2, spr 3 5 1].map some
      ∧ (smallBlock 8 8 (exampleRow.take 5) 8).q.length + (3 : Fin 4).val ≤ (smallBlock 8 8 (exampleRow.take 5) 8).cfg.maxCap
      ∧ InService fullBlock ∧ fullBlock.q.length ≤ fullBlock.cap := by
  decide

theorem witness_DequeueRemovesAndAnswersTheFront :
    InService (blockWith [ord 1 0] 16) ∧ (blockWith [ord 1 0] 16).q = ord 1 0 :: [] := by
  decide

theorem witness_ClearEmptiesTheQueueAndRetainsTheCapacity : InService (blockWith exampleRow 32) := by decide

/-- A run with a growth, a wrap of the front and every kind of move. -/
theorem witness_SamplesLeaveInTheOrderTheyWereAppended :
    (∀ i ∈ [Instr.row [1, 2, 3, 0, 1, 2, 3, 0] 0 false, .pop, .drop, .enq 0x0029, .enqb 2 0x0001 0x00D7 0, .deq, .len],
        movesInOrder i = true)
      ∧ ∃ t, runCommands [Instr.row [1, 2, 3, 0, 1, 2, 3, 0] 0 false, .pop, .drop, .enq 0x0029,
            .enqb 2 0x0001 0x00D7 0, .deq, .len] (smallBlock 16 1 [] 1) = .next t ∧ InService t :=
  ⟨by decide, _, rfl, by decide⟩

/-! ### The composer commands -/

theorem witness_RowAppendsEightSamplesLeftToRight :
    InService (smallBlock 8 1 [] 1) ∧ (smallBlock 8 1 [] 1).cfg.legal = true
      ∧ ([0, 1, 2, 3, 3, 2, 1, 0] : List ColorIdx).length = 8
      ∧ (smallBlock 8 1 [] 1).q.length + 8 = (smallBlock 8 1 [] 1).cfg.maxCap := by
  decide

theorem witness_TheMuxFollowsItsTruthTable :
    (0 : ColorIdx) = 0 ∧ (3 : ColorIdx) ≠ 0 ∧ (254 : OamIdx) < 255 ∧ (255 : OamIdx) ≤ 255 := by
  decide

/-- Every lane shows, and the outermost two target the front and the back. -/
theorem witness_OverlayReplacesExactlyWhatTheMuxReplaces :
    InService (blockWith exampleRow 16)
      ∧ ∀ j < 8, Shows (blockWith exampleRow 16) [1, 2, 3, 1, 2, 3, 1, 2] 0 j → Targets (blockWith exampleRow 16) 0 j := by
  unfold Shows Targets
  decide

theorem witness_AnAllZeroOverlayChangesNothing :
    InService (blockWith [] 16) ∧ ∀ c ∈ ([0, 0, 0, 0, 0, 0, 0, 0] : List ColorIdx), c = 0 := by
  decide

theorem witness_SetAndOverlayAreIdempotent :
    (∃ t, exec (.set 7 0x7FC2) (blockWith exampleRow 16) = .next t ∧ InService t)
      ∧ ∃ t, exec (.ovl [0, 0, 3, 3, 0, 0, 0, 0] 5 false 1 0) (blockWith exampleRow 16) = .next t ∧ InService t :=
  ⟨⟨_, rfl, by decide⟩, ⟨_, rfl, by decide⟩⟩

/-- A run of nine colors, whose last lane is in the second group. -/
theorem witness_ASplitOverlayRunActsLikeTheWholeRun :
    InService (blockWith (exampleRow ++ [ord 2 1]) 16)
      ∧ ∀ j < 9, Shows (blockWith (exampleRow ++ [ord 2 1]) 16) [1, 0, 0, 0, 0, 0, 0, 2, 3] 0 j →
          Targets (blockWith (exampleRow ++ [ord 2 1]) 16) 0 j := by
  unfold Shows Targets
  decide

/-- R82's example: both sprites are accepted against a background of color 2 without their priority flags. -/
theorem witness_TheLowerRankShowsInEitherOrder :
    ((ord 2 0).tag = .ordBg ∨ (ord 2 0).tag = .bgPrio) ∧ mux (ord 2 0) true false 2 = true
      ∧ mux (ord 2 0) true false 5 = true ∧ (2 : OamIdx) < 5 := by
  decide

theorem witness_PopSendsTheResolvedColorToTheSink :
    InService (blockWith [spr 3 5 1] 16) ∧ (blockWith [spr 3 5 1] 16).q = spr 3 5 1 :: []
      ∧ Params.standard.legal = true ∧ 0x7FFF < 2 ^ Params.standard.colorW
      ∧ ({ Params.standard with color := .table [0x7FFF, 0] } : Params).legal = true
      ∧ ([0x7FFF, 0] : List Nat)[0]? = some 0x7FFF := by
  decide

theorem witness_DropDiscardsTheFrontSample :
    InService (blockWith [ord 1 0, ord 2 0] 16) ∧ (blockWith [ord 1 0, ord 2 0] 16).q = ord 1 0 :: [ord 2 0] := by
  decide

/-! ### What commands leave alone -/

theorem witness_CommandsWriteOnlyWhatTheAccessTableSays :
    (∃ t, exec .pop (blockWith exampleRow 16) = .next t ∧ InService t) ∧ ∃ t, exec .clr haltedBlock = .next t :=
  ⟨⟨_, rfl, by decide⟩, ⟨_, rfl⟩⟩

theorem witness_OnlyOverlayReadsTheEnableFlag :
    (∀ colors pal prio oam ofs, Instr.pop ≠ .ovl colors pal prio oam ofs)
      ∧ ∃ t, exec .pop (blockWith exampleRow 16) = .next t :=
  ⟨fun _ _ _ _ _ h => (by cases h), _, rfl⟩

theorem witness_OnlyPopReadsThePalettes :
    Instr.deq ≠ .pop ∧ ∃ t, exec .deq (blockWith exampleRow 16) = .next t :=
  ⟨by decide, _, rfl⟩

theorem witness_TheBlockOnlyRoutesColors :
    (∃ t, exec .pop (blockWith exampleRow 16) = .next t) ∧ ∃ t, exec .deq (blockWith exampleRow 16) = .next t :=
  ⟨⟨_, rfl⟩, ⟨_, rfl⟩⟩

theorem witness_ADriverCycleSendsOneColorPerPop :
    driverCycle [.clr, .row [1, 2, 3, 0, 1, 2, 3, 0] 0 false, .ovl [0, 0, 3, 3, 0, 0, 0, 0] 5 false 1 0, .drop, .pop,
        .pop, .clr] = true
      ∧ ∃ t, runCommands [.clr, .row [1, 2, 3, 0, 1, 2, 3, 0] 0 false, .ovl [0, 0, 3, 3, 0, 0, 0, 0] 5 false 1 0, .drop,
        .pop, .pop, .clr] (blockWith [] 16) = .next t ∧ InService t :=
  ⟨by decide, _, rfl, by decide⟩

/-! ### The physical ring -/

/-- A ring of four slots whose three samples wrap: slots 3, 0 and 1. -/
def wrappedRing : Ring := { buf := [ord 2 0, ord 3 0, ord 0 0, ord 1 0], head := 3, cnt := 3 }

theorem witness_TheRingAtResetRepresentsTheResetState : 1 ≤ ({ Params.standard with initCap := 1 } : Params).initCap := by
  decide

theorem witness_ARingSlotHoldsTheSampleAtItsOffset : wrappedRing.Represents (blockWith [ord 1 0, ord 2 0, ord 3 0] 4) := by
  unfold Ring.Represents
  decide

/-- A batch of two grows the wrapped ring. -/
theorem witness_TheRingRefinesTheQueue :
    wrappedRing.Represents (blockWith [ord 1 0, ord 2 0, ord 3 0] 4)
      ∧ ∃ t, exec (.enqb 2 0x0001 0x0029 0) (blockWith [ord 1 0, ord 2 0, ord 3 0] 4) = .next t ∧ InService t :=
  ⟨witness_ARingSlotHoldsTheSampleAtItsOffset, _, rfl, by decide⟩

/-! ### The environment's register bank -/

theorem witness_TheRegisterBankFollowsItsAccessModes :
    (bankBlock [.bankRead (.byIdentity 1)]).bank.registers.find? (fun r => r.named (.byIdentity 1))
        = some ⟨1, 0xFF40, .writeOnly, 5⟩
      ∧ (bankBlock [.bankRead (.byAddress 0xFF41)]).bank.registers.find? (fun r => r.named (.byAddress 0xFF41))
          = some ⟨2, 0xFF41, .readOnly, 6⟩
      ∧ (255 : Nat) < 2 ^ (bankBlock [.bankWrite (.byIdentity 1) 255]).cfg.regW := by
  decide

theorem witness_AnUnknownRegisterIdentityFaults :
    (∀ r ∈ (bankBlock []).bank.registers, r.identity ≠ 0) ∧ ∀ r ∈ (bankBlock []).bank.registers, r.addr ≠ 0 := by
  decide

end Sys2Proof.Tests
end

section
/-! PROOFS. The layer the proofs of the scope statements share: which parameters are legal, what `nextPow2` and an
encoding answer, and which changes of the state the commands cannot see. -/

namespace Sys2Proof.Machine

open Sys2Proof.Bits Sys2Proof.Claims

/-! ### The parameters (R7) -/

/-- The legal values of R7, one clause per parameter. -/
theorem legal_iff {p : Params} :
    p.legal = true ↔ isPow2 p.maxCap = true ∧ 8 ≤ p.maxCap ∧ p.maxCap ≤ 32768 ∧ isPow2 p.initCap = true
      ∧ 1 ≤ p.initCap ∧ p.initCap ≤ p.maxCap ∧ 1 ≤ p.colorW ∧ p.colorW ≤ 32 ∧ 1 ≤ p.regW
      ∧ p.color.legal p.colorW = true := by
  simp [Params.legal, and_assoc]

theorem legal_standard : Params.standard.legal = true := by decide

/-- A listed encoding takes each of its colors to COLOR_W bits (R7, R65). -/
theorem legal_table_lt {bits : List Nat} {width b : Nat} (h : (ColorType.table bits).legal width = true)
    (hb : b ∈ bits) : b < 2 ^ width := by
  simp only [ColorType.legal, Bool.and_eq_true, List.all_eq_true, decide_eq_true_eq] at h
  exact h.2 b hb

theorem colorBits_lt {p : Params} (h : p.colorW ≤ 32) (c : Color) : (colorBits p c).toNat < 2 ^ p.colorW := by
  rw [colorBits_toNat h]
  exact Nat.mod_lt _ (Nat.two_pow_pos _)

/-- An encoding that fits in COLOR_W bits is answered as it is (R65). -/
theorem colorBits_of_lt {p : Params} (h : p.colorW ≤ 32) {c : Color} (hc : encodeColor p.color c < 2 ^ p.colorW) :
    (colorBits p c).toNat = encodeColor p.color c := by
  rw [colorBits_toNat h, Nat.mod_eq_of_lt hc]

/-! ### Capacity growth (R9, R68) -/

/-- `nextPow2` answers the least power of two that R9 describes. -/
theorem isNextPow2_nextPow2 (n : Nat) : IsNextPow2 n (nextPow2 n) :=
  ⟨nextPow2_pow n, le_nextPow2 n, fun _ => nextPow2_le_pow⟩

/-- The least power of two is unique, so the predicate determines `nextPow2`. -/
theorem eq_nextPow2_of_isNextPow2 {n c : Nat} (h : IsNextPow2 n c) : c = nextPow2 n := by
  obtain ⟨⟨k, rfl⟩, hle, hleast⟩ := h
  obtain ⟨m, hm⟩ := nextPow2_pow n
  refine Nat.le_antisymm ?_ (nextPow2_le_pow hle)
  rw [hm]
  exact hleast m (hm ▸ le_nextPow2 n)

theorem grow_of_fits {n : Nat} {s : State} (h : s.q.length + n ≤ s.cap) : grow n s = some s := if_pos h

theorem grow_of_full {n : Nat} {s : State} (h : s.cap < s.q.length + n) :
    grow n s = if nextPow2 (s.q.length + n) ≤ s.cfg.maxCap then some (s.withCap (nextPow2 (s.q.length + n)))
      else none := if_neg (by omega)

/-! ### Changes of the state that commands cannot see

The noninterference statements compare a command with itself at a changed state. They share one argument: the change
keeps what the commands read and commutes with each update of the block's own state, so it passes through every
shared operation. -/

/-- The next state changed by `r`; other outcomes as they are. -/
def nextThrough (r : State → State) : Result → Result
  | .next t => .next (r t)
  | .fault e => .fault e
  | .refused e => .refused e

@[simp] theorem nextThrough_next (r : State → State) (t : State) : nextThrough r (.next t) = .next (r t) := rfl

/-- `r` keeps all that commands other than POP read, the enable flag apart, and commutes with the updates of the
block's own state. -/
structure Unseen (r : State → State) : Prop where
  maxCap (s : State) : (r s).cfg.maxCap = s.cfg.maxCap
  ovlStart (s : State) : (r s).cfg.ovlStart = s.cfg.ovlStart
  q (s : State) : (r s).q = s.q
  cap (s : State) : (r s).cap = s.cap
  halted (s : State) : (r s).halted = s.halted
  respond (s : State) (rstat : BitVec 4) (rdata : Data) : (r s).respond rstat rdata = r (s.respond rstat rdata)
  withQueue (s : State) (q : List Sample) : (r s).withQueue q = r (s.withQueue q)
  withCap (s : State) (cap : Nat) : (r s).withCap cap = r (s.withCap cap)
  recordFault (s : State) (op : Nat) (f : FaultCode) (lane : Nat) (info : Data) :
    (r s).recordFault op f lane info = r (s.recordFault op f lane info)
  forgetQueue (s : State) : (r s).forgetQueue = r s.forgetQueue

namespace Unseen

variable {r : State → State} (hr : Unseen r) (s : State)
include hr

theorem countData : (r s).countData = s.countData := by
  simp [State.countData, hr.q]

theorem ok (data : Data) : ok data (r s) = nextThrough r (ok data s) := by
  simp [Machine.ok, hr.respond]

theorem raise (op : Nat) (f : FaultCode) (lane : Nat) (info : Data) :
    raise op f lane info (r s) = nextThrough r (raise op f lane info s) := by
  simp [Machine.raise, hr.recordFault, hr.respond]

/-- A halted block refuses either way; in service the commands themselves are compared. -/
theorem unlessHalted {c c' : Result} (h : c' = nextThrough r c) :
    unlessHalted (r s) c' = nextThrough r (unlessHalted s c) := by
  cases hs : s.halted with
  | true => simp [hs, hr.halted, hr.respond]
  | false => simp [hs, hr.halted, h]

theorem grow (n : Nat) : grow n (r s) = (grow n s).map r := by
  unfold Machine.grow
  rw [hr.q, hr.cap, hr.maxCap, hr.withCap]
  split
  · rfl
  · split <;> rfl

theorem appendBack (op : Nat) (xs : List Sample) : appendBack op xs (r s) = nextThrough r (appendBack op xs s) := by
  unfold Machine.appendBack
  rw [hr.grow, hr.q]
  cases Machine.grow xs.length s with
  | none => exact hr.raise s op .capacity 0 _
  | some t => simp only [Option.map_some, hr.q, hr.withQueue, hr.ok]

theorem removeFront (op : Nat) {k k' : Sample → State → Result}
    (hk : ∀ x t, k' x (r t) = nextThrough r (k x t)) :
    removeFront op (r s) k' = nextThrough r (removeFront op s k) := by
  cases hq : s.q with
  | nil => simp only [removeFront_nil hq, removeFront_nil ((hr.q s).trans hq), hr.raise]
  | cons x rest => simp only [removeFront_cons hq, removeFront_cons ((hr.q s).trans hq), hr.withQueue, hk]

theorem clearQueue : clearQueue (r s) = nextThrough r (clearQueue s) := by
  simp only [Machine.clearQueue, hr.withQueue, hr.ok]

theorem execGet (idx : Nat) : execGet idx (r s) = nextThrough r (execGet idx s) := by
  refine hr.unlessHalted s ?_
  rw [hr.q]
  cases sampleAt s.q idx with
  | none => exact hr.raise s _ _ _ _
  | some x => exact hr.ok s _

theorem execSet (idx : Nat) (smp : SampleWord) : execSet idx smp (r s) = nextThrough r (execSet idx smp s) := by
  refine hr.unlessHalted s ?_
  rw [hr.q]
  cases decodeSample smp with
  | none => exact hr.raise s _ _ _ _
  | some x =>
    cases sampleAt s.q idx with
    | none => exact hr.raise s _ _ _ _
    | some _ => simp only [hr.withQueue, hr.ok]

theorem execEnq (smp : SampleWord) : execEnq smp (r s) = nextThrough r (execEnq smp s) := by
  refine hr.unlessHalted s ?_
  cases decodeSample smp with
  | none => exact hr.raise s _ _ _ _
  | some x => exact hr.appendBack s _ _

theorem execEnqb (n : Fin 4) (smp0 smp1 smp2 : SampleWord) :
    execEnqb n smp0 smp1 smp2 (r s) = nextThrough r (execEnqb n smp0 smp1 smp2 s) := by
  refine hr.unlessHalted s ?_
  cases decodeSamples 0 (batchWords n smp0 smp1 smp2) with
  | error e => exact hr.raise s _ _ _ _
  | ok xs => exact hr.appendBack s _ _

/-- OVL reads the enable flag besides (R25, R81). -/
theorem execOvl (hb : (r s).inputs.bgEn = s.inputs.bgEn) (colors : List ColorIdx) (pal : PalIdx) (prio : Bool)
    (oam : OamIdx) (ofs : Int) :
    execOvl colors pal prio oam ofs (r s) = nextThrough r (execOvl colors pal prio oam ofs s) := by
  refine hr.unlessHalted s ?_
  rw [hr.ovlStart, hb, hr.q]
  cases overlay (firstLane s.cfg.ovlStart ofs) s.inputs.bgEn pal prio oam ofs 0 colors s.q with
  | error e => simp only [hr.forgetQueue, hr.raise]
  | ok q => simp only [hr.withQueue, hr.ok]

/-- A POP that sends nothing: the block is halted, or the queue empty (R92, R96). -/
theorem execPop_unsent (h : s.halted = true ∨ s.q = []) : execPop (r s) = nextThrough r (execPop s) := by
  cases hs : s.halted with
  | true => simp [execPop, hs, hr.halted, hr.respond]
  | false =>
    have hq : s.q = [] := h.resolve_left (by simp [hs])
    exact hr.unlessHalted s (by rw [removeFront_nil hq, removeFront_nil ((hr.q s).trans hq), hr.raise])

/-- An unseen change passes through every command but POP, and through OVL where it keeps the enable flag (R32). -/
theorem exec {i : Instr} (hpop : i ≠ .pop)
    (hovl : (∃ colors pal prio oam ofs, i = .ovl colors pal prio oam ofs) → (r s).inputs.bgEn = s.inputs.bgEn) :
    exec i (r s) = nextThrough r (exec i s) := by
  cases i with
  | len => exact hr.unlessHalted s (by rw [hr.countData, hr.ok])
  | cnt => exact hr.unlessHalted s (by rw [hr.countData, hr.ok])
  | row colors pal prio => exact hr.unlessHalted s (hr.appendBack s _ _)
  | ovl colors pal prio oam ofs => exact hr.execOvl s (hovl ⟨_, _, _, _, _, rfl⟩) colors pal prio oam ofs
  | pop => exact absurd rfl hpop
  | drop => exact hr.unlessHalted s (hr.removeFront s _ fun _ t => hr.ok t 0)
  | deq => exact hr.unlessHalted s (hr.removeFront s _ fun x t => hr.ok t (sampleData x))
  | clr => exact hr.unlessHalted s (hr.clearQueue s)
  | rclr => exact hr.unlessHalted s (hr.clearQueue s)
  | get idx => exact hr.execGet s idx
  | set idx smp => exact hr.execSet s idx smp
  | enq smp => exact hr.execEnq s smp
  | enqb n smp0 smp1 smp2 => exact hr.execEnqb s n smp0 smp1 smp2

end Unseen

/-! ### Colors renamed -/

section
variable (f : Color → Color) (type : ColorType) (width : Nat)

theorem unseen_withColors : Unseen (withColors f type width) where
  maxCap _ := rfl
  ovlStart _ := rfl
  q _ := rfl
  cap _ := rfl
  halted _ := rfl
  respond _ _ _ := rfl
  withQueue _ _ := rfl
  withCap _ _ := rfl
  recordFault _ _ _ _ _ := rfl
  forgetQueue _ := rfl

@[simp] theorem bankEntry_map (b : Bank) (pal : PalIdx) (color : ColorIdx) :
    bankEntry (b.map f) pal color = f (bankEntry b pal color) := by
  simp [bankEntry]

/-- The arbiter routes a color and looks at the tag alone (R83). -/
theorem arbitrate_withColors (s : State) (x : Sample) :
    arbitrate (withColors f type width s).inputs x = f (arbitrate s.inputs x) := by
  unfold arbitrate
  cases x.tag <;> exact bankEntry_map f _ _ _

theorem deliver_withColors (s : State) (c : Color) :
    (withColors f type width s).deliver (f c) = withColors f type width (s.deliver c) := by
  simp [withColors, State.deliver]

end

/-- POP in service removes the front sample, sends its color and answers the color's bits (R84). -/
theorem execPop_cons {s : State} {x : Sample} {rest : List Sample} (h : s.halted = false) (hq : s.q = x :: rest) :
    execPop s = .next (((s.withQueue rest).deliver (arbitrate s.inputs x)).respond rstatOk
      (colorBits s.cfg (arbitrate s.inputs x))) := by
  rw [execPop, unlessHalted_running h, removeFront_cons hq, ok]

/-- POP sends the renamed color, and its answer alone may differ, in RDATA (R84, D10). -/
theorem execPop_withColors (f : Color → Color) (type : ColorType) (width : Nat) {s t : State}
    (h : execPop s = .next t) :
    ∃ u, execPop (withColors f type width s) = .next u
      ∧ u = { withColors f type width t with resp := u.resp }
      ∧ u.resp.map Response.rstat = t.resp.map Response.rstat := by
  have hr := unseen_withColors f type width
  by_cases hsent : s.halted = true ∨ s.q = []
  · refine ⟨withColors f type width t, ?_, rfl, rfl⟩
    rw [hr.execPop_unsent s hsent, h, nextThrough_next]
  · obtain ⟨hs, hq⟩ := not_or.mp hsent
    obtain ⟨x, rest, hq⟩ := List.exists_cons_of_ne_nil hq
    have hs := Bool.eq_false_of_not_eq_true hs
    rw [execPop_cons hs hq] at h
    cases h
    refine ⟨_, execPop_cons ((hr.halted s).trans hs) ((hr.q s).trans hq), ?_, rfl⟩
    rw [arbitrate_withColors, hr.withQueue, deliver_withColors]
    rfl

end Sys2Proof.Machine
end

section
/-! PROOFS. The scope statements (`00_scope.md`). -/

namespace Sys2Proof.Proofs.Scope

open Sys2Proof.Bits Sys2Proof.Machine Sys2Proof.Safety Sys2Proof.Claims

/-- Settles O27: `nextPow2` is the one number that R9 describes. -/
theorem growTakesTheLeastPowerOfTwo : Obligations.GrowTakesTheLeastPowerOfTwo := by
  refine ⟨fun n s h => grow_of_fits h, fun n c s hfull hc => ?_, fun n => ⟨_, isNextPow2_nextPow2 n⟩⟩
  rw [grow_of_full hfull, ← eq_nextPow2_of_isNextPow2 hc]
  rfl

/-- Settles O55: renaming is unseen by every command but POP, which routes the renamed color. -/
theorem theBlockOnlyRoutesColors : Obligations.TheBlockOnlyRoutesColors := by
  intro f type width i s t h
  by_cases hpop : i = .pop
  · subst hpop
    obtain ⟨u, hu, hframe, hstat⟩ := execPop_withColors f type width h
    exact ⟨u, hu, hframe, hstat, fun hne => absurd rfl hne⟩
  · refine ⟨withColors f type width t, ?_, rfl, rfl, fun _ => rfl⟩
    rw [(unseen_withColors f type width).exec s hpop fun _ => rfl, h, nextThrough_next]

/-- The reset state meets the invariant clause by clause: the capacity is INIT_CAP, nothing is queued or sent. -/
theorem inv_resetWith {p : Params} {inputs : Inputs} (hp : p.legal = true) (hbg : ∀ c ∈ inputs.bgPal, IsColor p c)
    (hobj : ∀ c ∈ inputs.objPal, IsColor p c) : Inv (State.resetWith p inputs) := by
  obtain ⟨-, -, -, hinitPow2, -, hinitLe, -⟩ := legal_iff.mp hp
  exact {
    params := hp
    capPow2 := hinitPow2
    countLeCap := Nat.zero_le _
    capLeMax := hinitLe
    initLeCap := Nat.le_refl _
    status := show FStat.legal 0 = true by decide
    unfaulted := fun _ => ⟨rfl, rfl, rfl⟩
    response := trivial
    palettes := ⟨hbg, hobj⟩
    driven := fun _ _ _ _ h => absurd h List.not_mem_nil
    sink := fun _ h => absurd h List.not_mem_nil
    bank := ⟨fun _ h => absurd h List.not_mem_nil, fun _ h => nomatch h⟩ }

/-- The undriven palettes hold color 0, which every legal type has. -/
theorem isColor_of_mem_undriven {p : Params} (hp : p.legal = true) {c : Color} (hc : c ∈ Vector.replicate 32 0) :
    IsColor p c := by
  obtain ⟨-, -, -, -, -, -, -, -, -, hcolor⟩ := legal_iff.mp hp
  obtain ⟨-, rfl⟩ := Vector.mem_replicate.mp hc
  exact isColor_zero hcolor

/-- Settles O2. -/
theorem resetMeetsTheInvariant : Obligations.ResetMeetsTheInvariant :=
  ⟨fun _ _ hp hbg hobj => inv_resetWith hp hbg hobj,
    inv_resetWith legal_standard (fun _ => isColor_of_mem_undriven legal_standard)
      fun _ => isColor_of_mem_undriven legal_standard⟩

/-- Settles O44: the answer keeps the whole encoding, since a legal one fits in COLOR_W bits. -/
theorem popSendsTheResolvedColorToTheSink : Obligations.PopSendsTheResolvedColorToTheSink := by
  refine ⟨fun s x rest hs hq => execPop_cons hs hq, fun p c hp => ?_⟩
  obtain ⟨-, -, -, -, -, -, -, hwidth, -, hcolor⟩ := legal_iff.mp hp
  refine ⟨colorBits_lt hwidth c, fun htype hc => ?_, fun bits b htype hb => ?_⟩
  · have henc : encodeColor p.color c = c := by rw [htype, encodeColor_unsigned]
    rw [colorBits_of_lt hwidth (by rwa [henc]), henc]
  · have henc : encodeColor p.color c = b := by simp [htype, hb]
    rw [htype] at hcolor
    rw [colorBits_of_lt hwidth (by rw [henc]; exact legal_table_lt hcolor (List.mem_of_getElem? hb)), henc]

end Sys2Proof.Proofs.Scope
end

section
/-! PROOFS. The layer the proofs of the state statements share: what `Grow` may answer, and what each command can do,
command by command. -/

namespace Sys2Proof.Machine

open Sys2Proof.Bits Sys2Proof.Safety Sys2Proof.Claims

/-! ### Capacity growth (R68) -/

/-- `Grow(n)` changes the capacity alone, never to a smaller one, and makes room for `n` samples. -/
theorem grow_withCap {n : Nat} {s g : State} (h : grow n s = some g) :
    ∃ c, g = s.withCap c ∧ s.cap ≤ c ∧ s.q.length + n ≤ c := by
  obtain ⟨hfits, rfl⟩ | ⟨hfull, -, rfl⟩ := grow_some h
  · exact ⟨_, rfl, Nat.le_refl _, hfits⟩
  · have := le_nextPow2 (s.q.length + n)
    exact ⟨_, rfl, by omega, this⟩

/-- The state a `CommandEffect.done` starts from differs in the capacity alone, which is not smaller. -/
theorem withCap_of_grown {q : List Sample} {s g : State}
    (hg : (g = s ∧ q.length ≤ s.q.length) ∨ ∃ n, grow n s = some g ∧ q.length = s.q.length + n) :
    ∃ c, g = s.withCap c ∧ s.cap ≤ c := by
  obtain ⟨rfl, -⟩ | ⟨n, hg, -⟩ := hg
  · exact ⟨_, rfl, Nat.le_refl _⟩
  · obtain ⟨c, rfl, hle, -⟩ := grow_withCap hg
    exact ⟨c, rfl, hle⟩

/-! ### What each command can do -/

/-- The commands that some state and operands make fault (R90 to R93): all but those that only count or clear. -/
def canRaise : Instr → Bool
  | .len => false
  | .cnt => false
  | .clr => false
  | .rclr => false
  | _ => true

/-- What a command that raises no fault does in service, one case per command (R69 to R75, R77, R78, R81, R84 to R86). -/
inductive Completes (s : State) : Instr → State → Prop where
  | len : Completes s .len (s.respond rstatOk s.countData)
  | cnt : Completes s .cnt (s.respond rstatOk s.countData)
  | get {idx : Nat} {x : Sample} (hx : s.q[idx]? = some x) : Completes s (.get idx) (s.respond rstatOk (sampleData x))
  | set {idx : Nat} {smp : SampleWord} {x : Sample} (hx : decodeSample smp = some x) (hidx : idx < s.q.length) :
    Completes s (.set idx smp) ((s.withQueue (s.q.set idx x)).respond rstatOk 0)
  | ovl {colors : List ColorIdx} {pal : PalIdx} {prio : Bool} {oam : OamIdx} {ofs : Int} {q : List Sample}
    (hq : overlay (firstLane s.cfg.ovlStart ofs) s.inputs.bgEn pal prio oam ofs 0 colors s.q = .ok q) :
    Completes s (.ovl colors pal prio oam ofs) ((s.withQueue q).respond rstatOk 0)
  | row {colors : List ColorIdx} {pal : PalIdx} {prio : Bool} {c : Nat}
    (hg : grow (rowSamples colors pal prio).length s = some (s.withCap c)) :
    Completes s (.row colors pal prio)
      (((s.withCap c).withQueue (s.q ++ rowSamples colors pal prio)).respond rstatOk 0)
  | enq {smp : SampleWord} {x : Sample} {c : Nat} (hx : decodeSample smp = some x)
    (hg : grow 1 s = some (s.withCap c)) :
    Completes s (.enq smp) (((s.withCap c).withQueue (s.q ++ [x])).respond rstatOk 0)
  | enqb {n : Fin 4} {smp0 smp1 smp2 : SampleWord} {xs : List Sample} {c : Nat}
    (hxs : decodeSamples 0 (batchWords n smp0 smp1 smp2) = .ok xs) (hg : grow xs.length s = some (s.withCap c)) :
    Completes s (.enqb n smp0 smp1 smp2) (((s.withCap c).withQueue (s.q ++ xs)).respond rstatOk 0)
  | pop {x : Sample} {rest : List Sample} (hq : s.q = x :: rest) :
    Completes s .pop (((s.withQueue rest).deliver (arbitrate s.inputs x)).respond rstatOk
      (colorBits s.cfg (arbitrate s.inputs x)))
  | drop {x : Sample} {rest : List Sample} (hq : s.q = x :: rest) :
    Completes s .drop ((s.withQueue rest).respond rstatOk 0)
  | deq {x : Sample} {rest : List Sample} (hq : s.q = x :: rest) :
    Completes s .deq ((s.withQueue rest).respond rstatOk (sampleData x))
  | clr : Completes s .clr ((s.withQueue []).respond rstatOk 0)
  | rclr : Completes s .rclr ((s.withQueue []).respond rstatOk 0)

/-- Everything the command `i` can answer from `s`: `CommandEffect`, told apart by command. -/
inductive ExecEffect (s : State) (i : Instr) (t : State) : Prop where
  | refused (h : s.halted = true) (ht : t = s.respond rstatHalted 0)
  | raised (h : s.halted = false) (hi : canRaise i = true) (op : Nat) (f : FaultCode) (lane : Nat) (info : Data)
      (ht : t = (s.recordFault op f lane info).respond (BitVec.ofNat 4 f.code) 0)
  | overlayRaised (h : s.halted = false) {colors : List ColorIdx} {pal : PalIdx} {prio : Bool} {oam : OamIdx}
      {ofs : Int} (hi : i = .ovl colors pal prio oam ofs) (op : Nat) (f : FaultCode) (lane : Nat) (info : Data)
      (ht : t = (s.forgetQueue.recordFault op f lane info).respond (BitVec.ofNat 4 f.code) 0)
  | completed (h : s.halted = false) (hc : Completes s i t)

namespace ExecEffect

variable {s t : State} {i : Instr}

theorem of_unlessHalted {c : Result} (h : unlessHalted s c = .next t)
    (hc : s.halted = false → c = .next t → ExecEffect s i t) : ExecEffect s i t := by
  obtain ⟨hs, ht⟩ | ⟨hs, h⟩ := unlessHalted_next h
  · exact .refused hs ht
  · exact hc hs h

theorem of_appendBack (hs : s.halted = false) (hi : canRaise i = true) {op : Nat} {xs : List Sample}
    (h : appendBack op xs s = .next t)
    (hc : ∀ c, grow xs.length s = some (s.withCap c) →
      Completes s i (((s.withCap c).withQueue (s.q ++ xs)).respond rstatOk 0)) : ExecEffect s i t := by
  obtain ⟨-, rfl⟩ | ⟨g, hg, rfl⟩ := appendBack_next h
  · exact .raised hs hi op .capacity 0 _ rfl
  · obtain ⟨c, rfl, -⟩ := grow_withCap hg
    exact .completed hs (hc c hg)

theorem of_removeFront (hs : s.halted = false) (hi : canRaise i = true) {op : Nat} {k : Sample → State → Result}
    (h : removeFront op s k = .next t)
    (hc : ∀ x rest, s.q = x :: rest → k x (s.withQueue rest) = .next t → Completes s i t) : ExecEffect s i t := by
  cases hq : s.q with
  | nil => exact .raised hs hi op .emptyQueue 0 0 (raise_next (removeFront_nil hq k ▸ h))
  | cons x rest => exact .completed hs (hc x rest hq (removeFront_cons hq k ▸ h))

end ExecEffect

theorem execGet_outcome {idx : Nat} {s t : State} (h : execGet idx s = .next t) : ExecEffect s (.get idx) t := by
  refine .of_unlessHalted h fun hs h => ?_
  rw [sampleAt_ofNat] at h
  cases hx : s.q[idx]? with
  | none => exact .raised hs rfl _ _ _ _ (raise_next (by simpa [hx] using h))
  | some x =>
    rw [hx] at h
    exact .completed hs (ok_next h ▸ .get hx)

theorem execSet_outcome {idx : Nat} {smp : SampleWord} {s t : State} (h : execSet idx smp s = .next t) :
    ExecEffect s (.set idx smp) t := by
  refine .of_unlessHalted h fun hs h => ?_
  split at h
  · exact .raised hs rfl _ _ _ _ (raise_next h)
  next x hx =>
    split at h
    · exact .raised hs rfl _ _ _ _ (raise_next h)
    next old hold =>
      rw [sampleAt_ofNat] at hold
      exact .completed hs (ok_next h ▸ .set hx (List.getElem?_eq_some_iff.mp hold).1)

theorem execOvl_outcome {colors : List ColorIdx} {pal : PalIdx} {prio : Bool} {oam : OamIdx} {ofs : Int} {s t : State}
    (h : execOvl colors pal prio oam ofs s = .next t) : ExecEffect s (.ovl colors pal prio oam ofs) t := by
  refine .of_unlessHalted h fun hs h => ?_
  split at h
  · exact .overlayRaised hs rfl _ _ _ _ (raise_next h)
  next q hq => exact .completed hs (ok_next h ▸ .ovl hq)

theorem execEnq_outcome {smp : SampleWord} {s t : State} (h : execEnq smp s = .next t) : ExecEffect s (.enq smp) t := by
  refine .of_unlessHalted h fun hs h => ?_
  split at h
  · exact .raised hs rfl _ _ _ _ (raise_next h)
  next x hx => exact .of_appendBack hs rfl h fun c hg => .enq hx hg

theorem execEnqb_outcome {n : Fin 4} {smp0 smp1 smp2 : SampleWord} {s t : State}
    (h : execEnqb n smp0 smp1 smp2 s = .next t) : ExecEffect s (.enqb n smp0 smp1 smp2) t := by
  refine .of_unlessHalted h fun hs h => ?_
  split at h
  · exact .raised hs rfl _ _ _ _ (raise_next h)
  next xs hxs => exact .of_appendBack hs rfl h fun c hg => .enqb hxs hg

/-- The inversion lemma of `exec`, command by command. -/
theorem exec_outcome {i : Instr} {s t : State} (h : exec i s = .next t) : ExecEffect s i t := by
  cases i with
  | len => exact .of_unlessHalted h fun hs h => .completed hs (ok_next h ▸ .len)
  | cnt => exact .of_unlessHalted h fun hs h => .completed hs (ok_next h ▸ .cnt)
  | clr => exact .of_unlessHalted h fun hs h => .completed hs (clearQueue_next h ▸ .clr)
  | rclr => exact .of_unlessHalted h fun hs h => .completed hs (clearQueue_next h ▸ .rclr)
  | row colors pal prio =>
    exact .of_unlessHalted h fun hs h => .of_appendBack hs rfl h fun c hg => .row hg
  | pop =>
    exact .of_unlessHalted h fun hs h => .of_removeFront hs rfl h fun x rest hq hk => ok_next hk ▸ .pop hq
  | drop =>
    exact .of_unlessHalted h fun hs h => .of_removeFront hs rfl h fun x rest hq hk => ok_next hk ▸ .drop hq
  | deq =>
    exact .of_unlessHalted h fun hs h => .of_removeFront hs rfl h fun x rest hq hk => ok_next hk ▸ .deq hq
  | get idx => exact execGet_outcome h
  | set idx smp => exact execSet_outcome h
  | ovl colors pal prio oam ofs => exact execOvl_outcome h
  | enq smp => exact execEnq_outcome h
  | enqb n smp0 smp1 smp2 => exact execEnqb_outcome h

/-! ### What commands leave alone (R32) -/

section
variable {i : Instr} {s t : State}

/-- A command that ends in service was in service and raised nothing (R96, R97). -/
theorem completes_of_inService (h : exec i s = .next t) (ht : InService t) : InService s ∧ Completes s i t := by
  cases exec_outcome h with
  | refused hs he => simp [InService, he, hs] at ht
  | raised hs hi op f lane info he => simp [InService, he] at ht
  | overlayRaised hs hi op f lane info he => simp [InService, he] at ht
  | completed hs hc => exact ⟨hs, hc⟩

/-- No command changes a parameter, the stream, an input or a bank register. -/
theorem CommandEffect.environment (h : CommandEffect s t) :
    t.cfg = s.cfg ∧ t.inbox = s.inbox ∧ t.inputs = s.inputs ∧ t.bank = s.bank := by
  cases h with
  | refused hs ht => simp [ht]
  | faulted hs op f lane info u hu ht => rcases hu with rfl | rfl <;> simp [ht]
  | done hs q g hg sent hsent d ht =>
    obtain ⟨c, rfl, -⟩ := withCap_of_grown hg
    simp [ht]

/-- No command makes the capacity smaller (R18). -/
theorem CommandEffect.cap_le (h : CommandEffect s t) : s.cap ≤ t.cap := by
  cases h with
  | refused _ ht => simp [ht]
  | faulted _ _ _ _ _ u hu ht => rcases hu with rfl | rfl <;> simp [ht]
  | done _ q g hg _ _ _ ht =>
    obtain ⟨c, rfl, hle⟩ := withCap_of_grown hg
    simpa [ht] using hle

theorem exec_cap_of_not_inserts (h : exec i s = .next t) (hi : inserts i = false) : t.cap = s.cap := by
  cases exec_outcome h with
  | refused _ ht => simp [ht]
  | raised _ _ _ _ _ _ ht => simp [ht]
  | overlayRaised _ _ _ _ _ _ ht => simp [ht]
  | completed _ hc =>
    cases hc with
    | row _ => cases hi
    | enq _ _ => cases hi
    | enqb _ _ => cases hi
    | _ => rfl

theorem Completes.sinkOut (h : Completes s i t) (hi : i ≠ .pop) : t.sinkOut = s.sinkOut := by
  cases h with
  | pop _ => exact absurd rfl hi
  | _ => rfl

theorem exec_sinkOut_of_ne_pop (h : exec i s = .next t) (hi : i ≠ .pop) : t.sinkOut = s.sinkOut := by
  cases exec_outcome h with
  | refused _ ht => simp [ht]
  | raised _ _ _ _ _ _ ht => simp [ht]
  | overlayRaised _ _ _ _ _ _ ht => simp [ht]
  | completed _ hc => exact hc.sinkOut hi

theorem exec_queue_of_reads (h : exec i s = .next t) (hi : i = .len ∨ i = .cnt ∨ ∃ idx, i = .get idx) :
    t.q = s.q := by
  cases exec_outcome h with
  | refused _ ht => simp [ht]
  | raised _ _ _ _ _ _ ht => simp [ht]
  | overlayRaised _ hovl _ _ _ _ _ => simp [hovl] at hi
  | completed _ hc => obtain rfl | rfl | ⟨idx, rfl⟩ := hi <;> cases hc <;> rfl

theorem Completes.faultRegisters (h : Completes s i t) :
    t.fstat = s.fstat ∧ t.findex = s.findex ∧ t.fcount = s.fcount := by
  cases h <;> exact ⟨rfl, rfl, rfl⟩

theorem exec_faultRegisters_of_not_canRaise (h : exec i s = .next t) (hi : canRaise i = false) :
    t.fstat = s.fstat ∧ t.findex = s.findex ∧ t.fcount = s.fcount := by
  cases exec_outcome h with
  | refused _ ht => simp [ht]
  | raised _ hcan _ _ _ _ _ => simp [hi] at hcan
  | overlayRaised _ hovl _ _ _ _ _ => simp [hovl, canRaise] at hi
  | completed _ hc => exact hc.faultRegisters

end

end Sys2Proof.Machine
end

section
/-! PROOFS. The invariant of the block under the updates of the state, commands and steps (R16, R18, R21, R26, R27, R46,
R65). -/

namespace Sys2Proof.Safety

open Sys2Proof.Bits Sys2Proof.Machine Sys2Proof.Claims

/-! ### The updates keep the invariant -/

section
variable {s : State} (hs : Inv s)
include hs

theorem Inv.withInbox {e : PortEvent} {rest : List PortEvent} (h : s.inbox = e :: rest) : Inv (s.withInbox rest) :=
  { hs with driven := fun bank pal color c hc => hs.driven bank pal color c (h ▸ List.mem_cons_of_mem e hc) }

theorem Inv.respond {rstat : BitVec 4} {rdata : Data} (h : ResponseLegal (some ⟨rstat, rdata⟩)) :
    Inv (s.respond rstat rdata) :=
  { hs with response := h }

theorem Inv.withQueue {q : List Sample} (h : q.length ≤ s.cap) : Inv (s.withQueue q) :=
  { hs with countLeCap := h }

theorem Inv.forgetQueue : Inv s.forgetQueue :=
  { hs with countLeCap := s.forgetQueue_length ▸ hs.countLeCap }

theorem Inv.recordFault (op : Nat) (f : FaultCode) (lane : Nat) (info : Data) : Inv (s.recordFault op f lane info) :=
  { hs with
    status := FStat.legal_pack op lane f
    unfaulted := fun h => by simp at h }

theorem Inv.withSink {sent : List Color} (h : ∀ c ∈ sent, IsColor s.cfg c) :
    Inv { s with sinkOut := s.sinkOut ++ sent } :=
  { hs with sink := fun c hc => (List.mem_append.mp hc).elim (hs.sink c) (h c) }

theorem Inv.withInputs {inputs : Inputs}
    (h : (∀ c ∈ inputs.bgPal, IsColor s.cfg c) ∧ ∀ c ∈ inputs.objPal, IsColor s.cfg c) : Inv (s.withInputs inputs) :=
  { hs with palettes := h }

theorem Inv.withBank {bank : RegBank} (h : BankFits s.cfg bank) : Inv (s.withBank bank) :=
  { hs with bank := h }

theorem Inv.resetBlock : Inv s.resetBlock := by
  obtain ⟨-, -, -, hinitPow2, -, hinitLe, -⟩ := legal_iff.mp hs.params
  exact
  { hs with
    capPow2 := hinitPow2
    countLeCap := Nat.zero_le _
    capLeMax := hinitLe
    initLeCap := Nat.le_refl _
    status := show FStat.legal 0 = true by decide
    unfaulted := fun _ => ⟨rfl, rfl, rfl⟩
    response := trivial
    sink := fun _ h => absurd h List.not_mem_nil }

/-- `Grow` takes the capacity to a power of two within MAX_CAP, and makes room for the samples (R18, R68). -/
theorem Inv.grow {n : Nat} {g : State} (h : grow n s = some g) : Inv g ∧ s.q.length + n ≤ g.cap := by
  obtain ⟨hfits, rfl⟩ | ⟨hfull, hmax, rfl⟩ := grow_some h
  · exact ⟨hs, hfits⟩
  · have hroom := le_nextPow2 (s.q.length + n)
    refine ⟨{ hs with
      capPow2 := isPow2_iff.mpr (nextPow2_pow _)
      countLeCap := ?_
      capLeMax := hmax
      initLeCap := ?_ }, hroom⟩
    · show s.q.length ≤ nextPow2 _
      omega
    · have hinit := hs.initLeCap
      show s.cfg.initCap ≤ nextPow2 _
      omega

/-- The arbiter answers an entry of a bank, so a color (R26, R83). -/
theorem Inv.isColor_arbitrate (x : Sample) : IsColor s.cfg (arbitrate s.inputs x) := by
  obtain ⟨hbg, hobj⟩ := hs.palettes
  unfold arbitrate
  cases x.tag with
  | sprite o => exact hobj _ (Vector.getElem_mem _)
  | ordBg => exact hbg _ (Vector.getElem_mem _)
  | bgPrio => exact hbg _ (Vector.getElem_mem _)

end

/-! ### Commands and the other events keep the invariant -/

theorem responseLegal_ok (d : Data) : ResponseLegal (some ⟨rstatOk, d⟩) :=
  ⟨.inl (Nat.zero_le 5), .inl rfl⟩

theorem responseLegal_halted : ResponseLegal (some ⟨rstatHalted, 0⟩) := ⟨.inr rfl, .inr rfl⟩

theorem responseLegal_fault (f : FaultCode) : ResponseLegal (some ⟨BitVec.ofNat 4 f.code, 0⟩) :=
  ⟨.inl (by cases f <;> decide), .inr rfl⟩

theorem Inv.command {s t : State} (hs : Inv s) (h : CommandEffect s t) : Inv t := by
  cases h with
  | refused _ ht => exact ht ▸ hs.respond responseLegal_halted
  | faulted _ op f lane info u hu ht =>
    have hu : Inv u := by
      rcases hu with rfl | rfl
      · exact hs
      · exact hs.forgetQueue
    exact ht ▸ (hu.recordFault op f lane info).respond (responseLegal_fault f)
  | done _ q g hg sent hsent d ht =>
    have hgq : Inv g ∧ q.length ≤ g.cap ∧ g.cfg = s.cfg ∧ g.sinkOut = s.sinkOut := by
      rcases hg with ⟨rfl, hq⟩ | ⟨n, hg, hq⟩
      · exact ⟨hs, hq.trans hs.countLeCap, rfl, rfl⟩
      · obtain ⟨hInv, hroom⟩ := hs.grow hg
        obtain ⟨c, rfl, -⟩ := grow_withCap hg
        exact ⟨hInv, hq ▸ hroom, rfl, rfl⟩
    obtain ⟨hInv, hroom, hcfg, hsink⟩ := hgq
    have hcolors : ∀ c ∈ sent, IsColor g.cfg c := by
      rw [hcfg]
      rcases hsent with rfl | ⟨x, rfl⟩
      · simp
      · simpa using hs.isColor_arbitrate x
    rw [ht, ← hsink]
    exact ((hInv.withSink hcolors).withQueue hroom).respond (responseLegal_ok d)

/-- A bank with one entry changed to a color holds colors. -/
theorem isColor_of_mem_bankWith {p : Params} {b : Bank} {pal : PalIdx} {color : ColorIdx} {c : Color}
    (hb : ∀ c ∈ b, IsColor p c) (hc : IsColor p c) : ∀ c' ∈ bankWith b pal color c, IsColor p c' := by
  intro c' hc'
  rcases Vector.mem_or_eq_of_mem_set hc' with h | rfl
  · exact hb c' h
  · exact hc

theorem isColor_drivePalette {p : Params} {inputs : Inputs} {bank : BankName} {pal : PalIdx} {color : ColorIdx}
    {c : Color} (h : (∀ c ∈ inputs.bgPal, IsColor p c) ∧ ∀ c ∈ inputs.objPal, IsColor p c) (hc : IsColor p c) :
    (∀ c' ∈ (drivePalette inputs bank pal color c).bgPal, IsColor p c')
      ∧ ∀ c' ∈ (drivePalette inputs bank pal color c).objPal, IsColor p c' := by
  obtain ⟨hbg, hobj⟩ := h
  cases bank with
  | bg => exact ⟨isColor_of_mem_bankWith hbg hc, hobj⟩
  | obj => exact ⟨hbg, isColor_of_mem_bankWith hobj hc⟩

/-- What a register answers fits its width: its value, or all ones (R46). -/
theorem read_lt {p : Params} {r : BankRegister} (h : r.value < 2 ^ p.regW) : r.read p < 2 ^ p.regW := by
  unfold BankRegister.read
  split
  · exact Nat.sub_lt (Nat.two_pow_pos _) Nat.one_pos
  · exact h
  · exact h

theorem write_value_lt {p : Params} {v : Nat} {r : BankRegister} (h : r.value < 2 ^ p.regW) :
    (r.write p v).value < 2 ^ p.regW := by
  unfold BankRegister.write
  split
  · exact h
  · exact Nat.mod_lt _ (Nat.two_pow_pos _)
  · exact Nat.mod_lt _ (Nat.two_pow_pos _)

theorem Inv.bankRead {name : RegName} {s t : State} (hs : Inv s) (h : bankReadStep name s = .next t) : Inv t := by
  obtain ⟨hregs, -⟩ := hs.bank
  have hfits {v f : Nat} (hv : v < 2 ^ s.cfg.regW) :
      Inv { s with bank := { s.bank with readData := some v }, free := f } :=
    { hs with bank := ⟨hregs, fun v' hv' => Option.some.inj hv' ▸ hv⟩ }
  unfold bankReadStep at h
  split at h
  next r hr =>
    cases h
    exact hfits (read_lt (hregs r (List.mem_of_find?_eq_some hr)))
  next =>
    split at h
    · cases h
    · cases h
      exact hfits (Nat.mod_lt _ (Nat.two_pow_pos _))

theorem Inv.bankWrite {name : RegName} {v : Nat} {s t : State} (hs : Inv s) (h : bankWriteStep name v s = .next t) :
    Inv t := by
  obtain ⟨hregs, hread⟩ := hs.bank
  obtain rfl | rfl := bankWriteStep_next h
  · exact hs
  · refine hs.withBank ⟨fun r hr => ?_, hread⟩
    rcases mem_writeFirst hr with hr | ⟨r₀, hr₀, rfl⟩
    · exact hregs r hr
    · exact write_value_lt (hregs r₀ hr₀)

/-- Every event keeps the invariant. -/
theorem Inv.step {s t : State} (hs : Inv s) (h : step s = .next t) : Inv t := by
  cases step_effect h with
  | idle _ ht => exact ht ▸ hs
  | command w rest hin ht => exact (hs.withInbox hin).command ht
  | reset rest hin ht => exact ht ▸ (hs.withInbox hin).resetBlock
  | enable b rest hin ht => exact ht ▸ (hs.withInbox hin).withInputs hs.palettes
  | palette bank pal color c rest hin ht =>
    have hc : IsColor s.cfg c := hs.driven bank pal color c (hin ▸ List.mem_cons_self)
    exact ht ▸ (hs.withInbox hin).withInputs (isColor_drivePalette hs.palettes hc)
  | bankRead name rest hin ht => exact (hs.withInbox hin).bankRead ht
  | bankWrite name v rest hin ht => exact (hs.withInbox hin).bankWrite ht

end Sys2Proof.Safety
end

section
/-! PROOFS. The ring as a representation of the queue (R19): what each operation on the ring leaves of the contents. -/

namespace Sys2Proof.Machine

open Sys2Proof.Bits Sys2Proof.Safety Sys2Proof.Claims

namespace Ring

/-! ### Slots and contents -/

/-- The ring is well formed and holds `q`, sample by sample at its logical offset (R19). -/
structure Holds (r : Ring) (q : List Sample) : Prop where
  head_lt : r.head < r.cap
  cnt_le : r.cnt ≤ r.cap
  cnt_eq : r.cnt = q.length
  read_eq : ∀ i < r.cnt, r.read i = q[i]?

variable {r : Ring} {q : List Sample}

theorem ok_iff : r.ok = true ↔ r.head < r.cap ∧ r.cnt ≤ r.cap := by
  simp [Ring.ok]

theorem slot_lt (h : r.head < r.cap) (i : Nat) : r.slot i < r.cap := Nat.mod_lt _ (Nat.zero_lt_of_lt h)

/-- No two offsets below the capacity share a slot, wrapped or not. -/
theorem slot_inj {i j : Nat} (hi : i < r.cap) (hj : j < r.cap) : r.slot i = r.slot j ↔ i = j := by
  refine ⟨fun h => ?_, fun h => h ▸ rfl⟩
  have h : i ≡ j [MOD r.cap] := Nat.ModEq.add_left_cancel' r.head h
  exact h.eq_of_lt_of_lt hi hj

/-- Every slot of a well-formed ring holds a sample, so the contents are one sample per offset. -/
theorem contents_eq_map (h : r.head < r.cap) : r.contents.map some = (List.range r.cnt).map r.read := by
  have hsome (i : Nat) : ∃ x, r.read i = some x := ⟨_, List.getElem?_eq_getElem (slot_lt h i)⟩
  unfold Ring.contents
  induction List.range r.cnt with
  | nil => rfl
  | cons i is ih =>
    obtain ⟨x, hx⟩ := hsome i
    simp [hx, ih]

/-- `Holds` is what the abstraction function of R19 says. -/
theorem holds_iff : r.Holds q ↔ r.ok = true ∧ r.contents = q := by
  constructor
  · rintro ⟨hhead, hcnt, hlen, hread⟩
    refine ⟨ok_iff.mpr ⟨hhead, hcnt⟩, List.map_injective_iff.mpr (Option.some_injective _) ?_⟩
    rw [contents_eq_map hhead]
    refine List.ext_getElem (by simpa using hlen) fun i hi _ => ?_
    have hi : i < r.cnt := by simpa using hi
    simp [hread i hi, hlen ▸ hi]
  · rintro ⟨hok, rfl⟩
    obtain ⟨hhead, hcnt⟩ := ok_iff.mp hok
    have hmap := contents_eq_map hhead
    have hlen : r.contents.length = r.cnt := by simpa using congrArg List.length hmap
    refine ⟨hhead, hcnt, hlen.symm, fun i hi => ?_⟩
    have hget := congrArg (·[i]?) hmap
    simp only [List.getElem?_map, List.getElem?_range hi, Option.map_some] at hget
    rw [List.getElem?_eq_getElem (hlen ▸ hi)] at hget ⊢
    exact (Option.some.inj hget).symm

theorem represents_iff {s : State} : r.Represents s ↔ r.Holds s.q ∧ r.cap = s.cap := by
  rw [Ring.Represents, holds_iff, and_assoc]

/-! ### Operations on the ring -/

theorem holds_nil {buf : List Sample} (h : 0 < buf.length) : ({ buf := buf, head := 0, cnt := 0 } : Ring).Holds [] where
  head_lt := h
  cnt_le := Nat.zero_le _
  cnt_eq := rfl
  read_eq _ hi := absurd hi (Nat.not_lt_zero _)

theorem Holds.clear (h : r.Holds q) : r.clear.Holds [] := holds_nil (Nat.zero_lt_of_lt h.head_lt)

@[simp] theorem write_head (r : Ring) (i : Nat) (x : Sample) : (r.write i x).head = r.head := rfl
@[simp] theorem write_cnt (r : Ring) (i : Nat) (x : Sample) : (r.write i x).cnt = r.cnt := rfl
@[simp] theorem write_cap (r : Ring) (i : Nat) (x : Sample) : (r.write i x).cap = r.cap := List.length_set

@[simp] theorem push_head (r : Ring) (x : Sample) : (r.push x).head = r.head := rfl
@[simp] theorem push_cnt (r : Ring) (x : Sample) : (r.push x).cnt = r.cnt + 1 := rfl
@[simp] theorem push_cap (r : Ring) (x : Sample) : (r.push x).cap = r.cap := List.length_set

@[simp] theorem relocate_head (r : Ring) (newcap : Nat) (fresh : Nat → Sample) :
    (r.relocate newcap fresh).head = 0 := rfl
@[simp] theorem relocate_cnt (r : Ring) (newcap : Nat) (fresh : Nat → Sample) :
    (r.relocate newcap fresh).cnt = r.cnt := rfl
@[simp] theorem relocate_cap (r : Ring) (newcap : Nat) (fresh : Nat → Sample) :
    (r.relocate newcap fresh).cap = newcap := by
  simp [Ring.relocate, Ring.cap]

/-- A write shows at its own offset and at no other. -/
theorem read_write (h : r.head < r.cap) {i j : Nat} (hi : i < r.cap) (hj : j < r.cap) (x : Sample) :
    (r.write i x).read j = if i = j then some x else r.read j := by
  have hslot : (r.write i x).slot j = r.slot j := by simp [Ring.slot, Ring.write, Ring.cap]
  have hlt : r.slot i < r.buf.length := slot_lt h i
  show (r.buf.set (r.slot i) x)[(r.write i x).slot j]? = _
  simp [hslot, List.getElem?_set, slot_inj hi hj, hlt, Ring.read]

theorem Holds.write (h : r.Holds q) {i : Nat} (hi : i < q.length) (x : Sample) : (r.write i x).Holds (q.set i x) where
  head_lt := by simpa using h.head_lt
  cnt_le := by simpa using h.cnt_le
  cnt_eq := by simpa using h.cnt_eq
  read_eq j hj := by
    have hj : j < r.cnt := hj
    have hle := h.cnt_le
    have hlen := h.cnt_eq
    rw [read_write h.head_lt (by omega) (by omega), List.getElem?_set, h.read_eq j hj, if_pos hi]

theorem Holds.push (h : r.Holds q) (hroom : r.cnt < r.cap) (x : Sample) : (r.push x).Holds (q ++ [x]) where
  head_lt := by simpa using h.head_lt
  cnt_le := by simpa using Nat.succ_le_of_lt hroom
  cnt_eq := by simpa using h.cnt_eq
  read_eq j hj := by
    have hj : j < r.cnt + 1 := hj
    have hlen := h.cnt_eq
    -- A push is a write at the offset behind the last sample.
    have hread : (r.push x).read j = if r.cnt = j then some x else r.read j :=
      read_write h.head_lt hroom (by omega) x
    rw [hread]
    split
    next heq => simp [← heq, hlen]
    next hne => rw [h.read_eq j (by omega), List.getElem?_append_left (by omega)]

theorem Holds.pop {x : Sample} (h : r.Holds (x :: q)) : r.pop.Holds q where
  head_lt := Nat.mod_lt _ (Nat.zero_lt_of_lt h.head_lt)
  cnt_le := (Nat.sub_le _ _).trans h.cnt_le
  cnt_eq := by simp [Ring.pop, h.cnt_eq]
  read_eq i hi := by
    have hi : i < r.cnt - 1 := hi
    have hslot : r.pop.slot i = r.slot (i + 1) := by
      simp only [Ring.slot, Ring.pop, Ring.cap, Nat.mod_add_mod]
      congr 1
      omega
    have hread : r.pop.read i = r.read (i + 1) := by
      rw [Ring.read, hslot]
      rfl
    rw [hread, h.read_eq (i + 1) (by omega), List.getElem?_cons_succ]

/-- Growth moves the samples to the front of the new slots in their order (R68). -/
theorem Holds.relocate (h : r.Holds q) {newcap : Nat} (hpos : 0 < newcap) (hroom : q.length ≤ newcap)
    (fresh : Nat → Sample) : (r.relocate newcap fresh).Holds q where
  head_lt := by simpa using hpos
  cnt_le := by
    rw [relocate_cap]
    exact h.cnt_eq.le.trans hroom
  cnt_eq := h.cnt_eq
  read_eq i hi := by
    have hi : i < r.cnt := hi
    have hlen := h.cnt_eq
    have hslot : (r.relocate newcap fresh).slot i = i := by
      rw [Ring.slot, relocate_cap]
      simp only [Ring.relocate, Nat.zero_add]
      exact Nat.mod_eq_of_lt (by omega)
    rw [Ring.read, hslot]
    simp [Ring.relocate, List.getElem?_range (show i < newcap by omega), hi, h.read_eq i hi, hlen ▸ hi]

/-- The ring grows as the queue does (R68). -/
theorem Holds.grow {s g : State} (h : r.Holds s.q) (hcap : r.cap = s.cap) {n : Nat} (hg : Machine.grow n s = some g)
    (fresh : Nat → Sample) :
    ∃ r', r.grow s.cfg.maxCap n fresh = some r' ∧ r'.Holds s.q ∧ r'.cap = g.cap ∧ s.q.length + n ≤ r'.cap := by
  unfold Ring.grow
  rw [h.cnt_eq, hcap]
  obtain ⟨hfits, rfl⟩ | ⟨hfull, hmax, rfl⟩ := grow_some hg
  · exact ⟨r, if_pos hfits, h, hcap, hcap ▸ hfits⟩
  · have hroom := le_nextPow2 (s.q.length + n)
    refine ⟨_, by rw [if_neg (by omega), if_pos hmax], h.relocate (by omega) (by omega) fresh, by simp, by simpa⟩

theorem Holds.foldl_push {xs : List Sample} (h : r.Holds q) (hroom : q.length + xs.length ≤ r.cap) :
    (xs.foldl Ring.push r).Holds (q ++ xs) ∧ (xs.foldl Ring.push r).cap = r.cap := by
  induction xs generalizing r q with
  | nil => simpa using h
  | cons x xs ih =>
    simp only [List.length_cons] at hroom
    have hlen := h.cnt_eq
    have hpush := h.push (by omega) x
    simpa using ih hpush (by simp; omega)

/-- An insert that raises nothing appends at the back of the ring too (R38, R68). -/
theorem Holds.appendBack {s : State} (h : r.Holds s.q) (hcap : r.cap = s.cap) {xs : List Sample} {c : Nat}
    (hg : Machine.grow xs.length s = some (s.withCap c)) (fresh : Nat → Sample) :
    (r.appendBack s.cfg.maxCap fresh xs).Holds (s.q ++ xs) ∧ (r.appendBack s.cfg.maxCap fresh xs).cap = c := by
  obtain ⟨r', hr', hholds, hcap', hroom⟩ := h.grow hcap hg fresh
  obtain ⟨hpushed, hpushedCap⟩ := hholds.foldl_push hroom
  rw [Ring.appendBack, hr']
  exact ⟨hpushed, hpushedCap.trans hcap'⟩

/-- A lane that is skipped leaves the loop on the ring as it was. -/
theorem overlay_skip {start : Int} {bgEn : Bool} {pal : PalIdx} {prio : Bool} {oam : OamIdx} {ofs : Int} {j : Nat}
    {c : ColorIdx} {rest : List ColorIdx} (h : (j : Int) < start ∨ c = 0) :
    r.overlay start bgEn pal prio oam ofs j (c :: rest) = r.overlay start bgEn pal prio oam ofs (j + 1) rest := by
  have : (decide ((j : Int) < start) || c == 0) = true := by simpa using h
  rw [Ring.overlay, if_pos this]

/-- A shown lane reads the slot of its target, and writes it where the mux replaces. -/
theorem overlay_lane {start : Int} {bgEn : Bool} {pal : PalIdx} {prio : Bool} {oam : OamIdx} {ofs : Int} {j : Nat}
    {c : ColorIdx} {rest : List ColorIdx} {old : Sample} (h : ¬((j : Int) < start ∨ c = 0)) (hq : r.Holds q)
    (ht : sampleAt q (j - ofs) = some old) :
    r.overlay start bgEn pal prio oam ofs j (c :: rest)
      = Ring.overlay start bgEn pal prio oam ofs (j + 1) rest
          (if mux old bgEn prio oam then r.write (j - ofs).toNat { color := c, pal := pal, tag := .sprite oam }
           else r) := by
  have hshown : ¬(decide ((j : Int) < start) || c == 0) = true := by simpa using h
  obtain ⟨hnonneg, hold⟩ := sampleAt_some_iff.mp ht
  have hlt : ((j : Int) - ofs).toNat < q.length := (List.getElem?_eq_some_iff.mp hold).1
  have hcnt := hq.cnt_eq
  rw [Ring.overlay, if_neg hshown, if_pos (by omega), hq.read_eq _ (by omega), hold]

/-- The lane loop on the ring follows the lane loop on the queue, lane by lane (R81). -/
theorem Holds.overlay {start : Int} {bgEn : Bool} {pal : PalIdx} {prio : Bool} {oam : OamIdx} {ofs : Int} {j : Nat}
    {colors : List ColorIdx} {q' : List Sample} (h : r.Holds q)
    (ho : Machine.overlay start bgEn pal prio oam ofs j colors q = .ok q') :
    (r.overlay start bgEn pal prio oam ofs j colors).Holds q'
      ∧ (r.overlay start bgEn pal prio oam ofs j colors).cap = r.cap := by
  induction colors generalizing j r q with
  | nil => exact ⟨Except.ok.inj ho ▸ h, rfl⟩
  | cons c rest ih =>
    by_cases hskip : (j : Int) < start ∨ c = 0
    · rw [Machine.overlay_skip hskip] at ho
      rw [overlay_skip hskip]
      exact ih h ho
    · cases ht : sampleAt q (j - ofs) with
      | none => simp [overlay_fault hskip ht] at ho
      | some old =>
        rw [Machine.overlay_lane hskip ht] at ho
        rw [overlay_lane hskip h ht]
        obtain ⟨hnonneg, hold⟩ := sampleAt_some_iff.mp ht
        have hlt : ((j : Int) - ofs).toNat < q.length := (List.getElem?_eq_some_iff.mp hold).1
        by_cases hmux : mux old bgEn prio oam = true
        · rw [if_pos hmux] at ho ⊢
          obtain ⟨hholds, hcap⟩ := ih (h.write hlt _) ho
          exact ⟨hholds, hcap.trans (write_cap r _ _)⟩
        · rw [if_neg hmux] at ho ⊢
          exact ih h ho

/-- Every command that raises no fault does to the ring what it does to the queue and the capacity. -/
theorem Holds.command {s t : State} {i : Instr} (h : r.Holds s.q) (hcap : r.cap = s.cap) (hc : Completes s i t)
    (fresh : Nat → Sample) :
    (r.command s.cfg s.inputs.bgEn fresh i).Holds t.q ∧ (r.command s.cfg s.inputs.bgEn fresh i).cap = t.cap := by
  cases hc with
  | len => exact ⟨h, hcap⟩
  | cnt => exact ⟨h, hcap⟩
  | get _ => exact ⟨h, hcap⟩
  | set hx hidx =>
    simp only [Ring.command, hx]
    exact ⟨h.write hidx _, (write_cap r _ _).trans hcap⟩
  | ovl hq =>
    obtain ⟨hholds, hcap'⟩ := h.overlay hq
    exact ⟨hholds, hcap'.trans hcap⟩
  | row hg => exact h.appendBack hcap hg fresh
  | @enq smp x c hx hg =>
    simp only [Ring.command, hx]
    exact h.appendBack (xs := [x]) hcap hg fresh
  | enqb hxs hg =>
    simp only [Ring.command, hxs]
    exact h.appendBack hcap hg fresh
  | pop hq => exact ⟨(hq ▸ h).pop, hcap⟩
  | drop hq => exact ⟨(hq ▸ h).pop, hcap⟩
  | deq hq => exact ⟨(hq ▸ h).pop, hcap⟩
  | clr => exact ⟨h.clear, hcap⟩
  | rclr => exact ⟨h.clear, hcap⟩

end Ring

end Sys2Proof.Machine
end

section
/-! PROOFS. Fault-free runs of commands: what they leave of the queue, the capacity and the sink (R76, R105). -/

namespace Sys2Proof.Safety

open Sys2Proof.Bits Sys2Proof.Machine Sys2Proof.Claims

/-! ### Runs -/

@[simp] theorem runCommands_nil (s : State) : runCommands [] s = .next s := rfl

/-- A run that answers a state answers one after its first command. -/
theorem runCommands_cons {i : Instr} {is : List Instr} {s t : State} :
    runCommands (i :: is) s = .next t ↔ ∃ u, exec i s = .next u ∧ runCommands is u = .next t := by
  rw [runCommands]
  cases exec i s <;> simp

theorem runCommands_append {is js : List Instr} {s t : State} :
    runCommands (is ++ js) s = .next t ↔ ∃ u, runCommands is s = .next u ∧ runCommands js u = .next t := by
  induction is generalizing s with
  | nil => simp
  | cons i is ih =>
    simp only [List.cons_append, runCommands_cons, ih]
    exact ⟨fun ⟨v, hv, u, hu, ht⟩ => ⟨u, ⟨v, hv, hu⟩, ht⟩, fun ⟨u, ⟨v, hv, hu⟩, ht⟩ => ⟨v, hv, u, hu, ht⟩⟩

/-- A run that ends in service was in service from its start (R97). -/
theorem inService_of_runCommands {is : List Instr} {s t : State} (h : runCommands is s = .next t) (ht : InService t) :
    InService s := by
  induction is generalizing s with
  | nil => cases h; exact ht
  | cons i is ih =>
    obtain ⟨u, hu, h⟩ := runCommands_cons.mp h
    exact (completes_of_inService hu (ih h)).1

/-- The induction over a fault-free run: each of its commands completes. -/
theorem run_induction {t : State} (ht : InService t) {motive : ∀ is s, runCommands is s = .next t → Prop}
    (nil : motive [] t rfl)
    (cons : ∀ i is s u h, exec i s = .next u → Completes s i u → ∀ hrest : runCommands is u = .next t,
      motive is u hrest → motive (i :: is) s h)
    (is : List Instr) (s : State) (h : runCommands is s = .next t) : motive is s h := by
  induction is generalizing s with
  | nil => cases h; exact nil
  | cons i is ih =>
    obtain ⟨u, hu, hrest⟩ := runCommands_cons.mp h
    exact cons i is s u h hu (completes_of_inService hu (inService_of_runCommands hrest ht)).2 hrest (ih u hrest)

/-! ### The queue (R76) -/

/-- The samples of a batch that decodes are those its words decode to. -/
theorem filterMap_of_decodeSamples {ws : List SampleWord} {xs : List Sample} {k : Nat}
    (h : decodeSamples k ws = .ok xs) : ws.filterMap decodeSample = xs := by
  simpa [List.filterMap_map, Function.comp_def] using congrArg (List.filterMap id) (decodeSamples_ok_iff.mp h)

/-- A command that moves in order appends at the back and removes from the front (R76). -/
theorem completes_moves {i : Instr} {s t : State} (h : Completes s i t) (hi : movesInOrder i = true) :
    removed i ≤ s.q.length ∧ t.q = (s.q ++ appended i).drop (removed i) := by
  cases h with
  | set _ _ => cases hi
  | ovl _ => cases hi
  | clr => cases hi
  | rclr => cases hi
  | enq hx _ => simp [removed, appended, hx]
  | enqb hxs _ => simp [removed, appended, filterMap_of_decodeSamples hxs]
  | pop hq => simp [removed, appended, hq]
  | drop hq => simp [removed, appended, hq]
  | deq hq => simp [removed, appended, hq]
  | _ => simp [removed, appended]

theorem run_moves {is : List Instr} {s t : State} (hm : ∀ i ∈ is, movesInOrder i = true)
    (h : runCommands is s = .next t) (ht : InService t) :
    (is.map removed).sum ≤ (s.q ++ is.flatMap appended).length
      ∧ t.q = (s.q ++ is.flatMap appended).drop (is.map removed).sum := by
  induction is, s, h using run_induction ht with
  | nil => simp
  | cons i is s u _ _ hc _ ih =>
    rw [List.forall_mem_cons] at hm
    obtain ⟨hle, hq⟩ := completes_moves hc hm.1
    obtain ⟨hsum, htq⟩ := ih hm.2
    have hjoin : (s.q ++ (i :: is).flatMap appended).drop (removed i) = u.q ++ is.flatMap appended := by
      rw [List.flatMap_cons, ← List.append_assoc, List.drop_append_of_le_length (by simp; omega), hq]
    have hlen := congrArg List.length hjoin
    rw [List.length_drop] at hlen
    have hfront : removed i ≤ (s.q ++ (i :: is).flatMap appended).length :=
      hle.trans (List.length_append ▸ Nat.le_add_right _ _)
    rw [List.map_cons, List.sum_cons, ← List.drop_drop, hjoin]
    exact ⟨by omega, htq⟩

/-! ### The driver's cycle (R105) -/

/-- A command sends one color if it is a POP, and none otherwise (R27). -/
theorem completes_sends {i : Instr} {s t : State} (h : Completes s i t) :
    ∃ colors, t.sinkOut = s.sinkOut ++ colors ∧ colors.length = popCount [i] := by
  by_cases hi : i = .pop
  · subst hi
    cases h with
    | @pop x _ _ => exact ⟨[arbitrate s.inputs x], rfl, rfl⟩
  · exact ⟨[], by simp [h.sinkOut hi], by simp [popCount, hi]⟩

theorem run_cap_le {is : List Instr} {s t : State} (h : runCommands is s = .next t) (ht : InService t) :
    s.cap ≤ t.cap := by
  induction is, s, h using run_induction ht with
  | nil => exact Nat.le_refl _
  | cons i is s u _ hu _ _ ih => exact (exec_effect hu).cap_le.trans ih

theorem run_sends {is : List Instr} {s t : State} (h : runCommands is s = .next t) (ht : InService t) :
    ∃ colors, t.sinkOut = s.sinkOut ++ colors ∧ colors.length = popCount is := by
  induction is, s, h using run_induction ht with
  | nil => exact ⟨[], by simp, rfl⟩
  | cons i is s u _ _ hc _ ih =>
    obtain ⟨first, hfirst, hone⟩ := completes_sends hc
    obtain ⟨later, hlater, hcount⟩ := ih
    refine ⟨first ++ later, by rw [hlater, hfirst, List.append_assoc], ?_⟩
    rw [List.length_append, hone, hcount, popCount, popCount, popCount, ← List.countP_append, List.singleton_append]

/-- Both halves of the cycle end with the closing CLR. -/
theorem drains_ends_with_clr {is : List Instr} (h : drains is = true) : ∃ init, is = init ++ [.clr] := by
  induction is using drains.induct with
  | case1 => exact ⟨[], rfl⟩
  | case2 rest ih =>
    obtain ⟨init, rfl⟩ := ih h
    exact ⟨.pop :: init, rfl⟩
  | case3 rest ih =>
    obtain ⟨init, rfl⟩ := ih h
    exact ⟨.drop :: init, rfl⟩
  | case4 is h₁ h₂ h₃ => simp [drains] at h

theorem fills_ends_with_clr {is : List Instr} (h : fills is = true) : ∃ init, is = init ++ [.clr] := by
  induction is using fills.induct with
  | case1 colors pal prio rest ih =>
    obtain ⟨init, rfl⟩ := ih h
    exact ⟨.row colors pal prio :: init, rfl⟩
  | case2 colors pal prio oam ofs rest ih =>
    obtain ⟨init, rfl⟩ := ih h
    exact ⟨.ovl colors pal prio oam ofs :: init, rfl⟩
  | case3 is h₁ h₂ => exact drains_ends_with_clr (by simpa [fills] using h)

theorem driverCycle_ends_with_clr {is : List Instr} (h : driverCycle is = true) : ∃ init, is = init ++ [.clr] := by
  unfold driverCycle at h
  split at h
  next rest =>
    obtain ⟨init, rfl⟩ := fills_ends_with_clr h
    exact ⟨.clr :: init, rfl⟩
  next => cases h

/-- A run that closes with CLR leaves the queue empty (R86). -/
theorem run_clr_empties {init : List Instr} {s t : State} (h : runCommands (init ++ [.clr]) s = .next t)
    (ht : InService t) : t.q = [] := by
  obtain ⟨u, -, h⟩ := runCommands_append.mp h
  obtain ⟨v, hv, h⟩ := runCommands_cons.mp h
  cases h
  obtain ⟨-, hc⟩ := completes_of_inService hv ht
  cases hc
  rfl

end Sys2Proof.Safety
end

section
/-! PROOFS. Reads the commands do not make (R32), and what the events that drive an input change (R26, R110). -/

namespace Sys2Proof.Machine

open Sys2Proof.Bits Sys2Proof.Claims

/-! ### Inputs that commands do not read -/

theorem unseen_withBgEn (b : Bool) : Unseen (withBgEn b) where
  maxCap _ := rfl
  ovlStart _ := rfl
  q _ := rfl
  cap _ := rfl
  halted _ := rfl
  respond _ _ _ := rfl
  withQueue _ _ := rfl
  withCap _ _ := rfl
  recordFault _ _ _ _ _ := rfl
  forgetQueue _ := rfl

theorem unseen_withPalettes (bg obj : Bank) : Unseen (withPalettes bg obj) where
  maxCap _ := rfl
  ovlStart _ := rfl
  q _ := rfl
  cap _ := rfl
  halted _ := rfl
  respond _ _ _ := rfl
  withQueue _ _ := rfl
  withCap _ _ := rfl
  recordFault _ _ _ _ _ := rfl
  forgetQueue _ := rfl

/-- The arbiter reads the banks alone, so POP does not see the enable flag (R83, R84). -/
theorem execPop_withBgEn (b : Bool) (s : State) : execPop (withBgEn b s) = nextThrough (withBgEn b) (execPop s) :=
  have hr := unseen_withBgEn b
  hr.unlessHalted s (hr.removeFront s 0x4 fun _ _ => rfl)

/-! ### Palette entries -/

@[simp] theorem bankEntry_bankWith_same (b : Bank) (pal : PalIdx) (color : ColorIdx) (c : Color) :
    bankEntry (bankWith b pal color c) pal color = c := by
  simp [bankEntry, bankWith]

/-- Two entries of a bank never lie at the same place (R33). -/
theorem bankEntry_bankWith_other (b : Bank) {pal pal' : PalIdx} {color color' : ColorIdx} (c : Color)
    (h : (pal', color') ≠ (pal, color)) :
    bankEntry (bankWith b pal color c) pal' color' = bankEntry b pal' color' := by
  have hplace : pal.val * 4 + color.val ≠ pal'.val * 4 + color'.val := fun he =>
    h (Prod.ext (Fin.ext (by dsimp only; omega)) (Fin.ext (by dsimp only; omega)))
  simp only [bankEntry, bankWith]
  exact Vector.getElem_set_ne _ _ hplace

/-! ### The port -/

/-- A word placed as the next one of the stream is the one the next step presents (R28). -/
theorem step_withFetchWord (s : State) (w : Nat) : step (s.withFetchWord 64 w) = present (BitVec.ofNat 64 w) s := by
  have hw : BitVec.ofNat 64 (w % 2 ^ 64) = BitVec.ofNat 64 w := BitVec.eq_of_toNat_eq (by simp)
  have hin : (s.withFetchWord 64 w).inbox = .command (BitVec.ofNat 64 w) :: s.inbox := hw ▸ rfl
  exact step_event hin

theorem present_of_decode {w : Cmd} {i : Instr} (h : decode w = .ok i) (s : State) : present w s = exec i s := by
  rw [present, h]

/-- An illegal word never changes the capacity (R89, R96). -/
theorem present_cap_of_error {w : Cmd} {e : DecodeError} {s t : State} (hw : decode w = .error e)
    (h : present w s = .next t) : t.cap = s.cap := by
  rw [present, hw] at h
  obtain ⟨-, rfl⟩ | ⟨-, h⟩ := unlessHalted_next h
  · rfl
  · rw [raise_next h]
    rfl

/-- A presented word that changes the capacity is an insert (R18, R68). -/
theorem present_inserts_of_cap_ne {w : Cmd} {s t : State} (h : present w s = .next t) (hne : t.cap ≠ s.cap) :
    ∃ i, decode w = .ok i ∧ inserts i = true := by
  cases hw : decode w with
  | error e => exact absurd (present_cap_of_error hw h) hne
  | ok i =>
    rw [present_of_decode hw] at h
    refine ⟨i, rfl, ?_⟩
    by_contra hi
    exact hne (exec_cap_of_not_inserts h (Bool.eq_false_of_not_eq_true hi))

/-- No event but a command touches the capacity, reset apart (R18). -/
theorem step_cap {s t : State} (h : step s = .next t) (hreset : nextEvent s ≠ some .reset) :
    t.cap = s.cap ∨ ∃ w rest, s.inbox = .command w :: rest ∧ present w (s.withInbox rest) = .next t := by
  cases hin : s.inbox with
  | nil =>
    rw [step_idle hin] at h
    cases h
    exact .inl rfl
  | cons e rest =>
    rw [step_event hin] at h
    cases e with
    | command w => exact .inr ⟨w, rest, rfl, h⟩
    | reset => exact absurd (by simp [nextEvent, hin]) hreset
    | driveBgEn b => cases h; exact .inl rfl
    | drivePal bank pal color c => cases h; exact .inl rfl
    | bankRead name =>
      obtain ⟨v, f, rfl⟩ := bankReadStep_next h
      exact .inl rfl
    | bankWrite name v => obtain rfl | rfl := bankWriteStep_next h <;> exact .inl rfl
    | concurrent w₁ w₂ => cases h
    | unstable w => cases h

/-- Only the events that drive an input change one (R26, R110). -/
theorem step_inputs {s t : State} (h : step s = .next t) (hne : t.inputs ≠ s.inputs) :
    (∃ b, nextEvent s = some (.driveBgEn b)) ∨ ∃ bank p k c, nextEvent s = some (.drivePal bank p k c) := by
  cases step_effect h with
  | idle _ ht => exact absurd (ht ▸ rfl) hne
  | command w rest _ ht =>
    obtain ⟨-, -, hinputs, -⟩ := ht.environment
    exact absurd hinputs hne
  | reset rest _ ht => exact absurd (ht ▸ rfl) hne
  | enable b rest hin _ => exact .inl ⟨b, by simp [nextEvent, hin]⟩
  | palette bank pal color c rest hin _ => exact .inr ⟨bank, pal, color, c, by simp [nextEvent, hin]⟩
  | bankRead name rest _ ht =>
    obtain ⟨v, f, rfl⟩ := bankReadStep_next ht
    exact absurd rfl hne
  | bankWrite name v rest _ ht =>
    obtain rfl | rfl := bankWriteStep_next ht <;> exact absurd rfl hne

end Sys2Proof.Machine
end

section
/-! PROOFS. The statements about the state (`10_state.md`). -/

namespace Sys2Proof.Proofs.StateRules

open Sys2Proof.Bits Sys2Proof.Machine Sys2Proof.Safety Sys2Proof.Claims

/-- Settles O3. -/
theorem everyStepKeepsTheInvariant : Obligations.EveryStepKeepsTheInvariant := fun _ _ hs h => hs.step h

/-- Settles O52: a command that ends in service completed, and the ring follows what it did. -/
theorem theRingRefinesTheQueue : Obligations.TheRingRefinesTheQueue := by
  intro fresh i r s t hr h ht
  obtain ⟨hholds, hcap⟩ := Ring.represents_iff.mp hr
  obtain ⟨-, hc⟩ := completes_of_inService h ht
  exact Ring.represents_iff.mpr (hholds.command hcap hc fresh)

/-- Settles O4: the bounds are clauses of the invariant; only a command, and of those only an insert, changes `cap`. -/
theorem capacityStaysAPowerOfTwoAndNeverShrinks : Obligations.CapacityStaysAPowerOfTwoAndNeverShrinks := by
  intro s t hs h
  have ht := hs.step h
  refine ⟨⟨ht.countLeCap, ht.capLeMax, isPow2_iff.mp ht.capPow2, ht.initLeCap⟩, fun hreset => ?_⟩
  obtain hcap | ⟨w, rest, hin, hp⟩ := step_cap h hreset
  · exact ⟨hcap.ge, fun hne => absurd hcap hne⟩
  · refine ⟨(present_effect hp).cap_le, fun hne => ?_⟩
    obtain ⟨i, hw, hi⟩ := present_inserts_of_cap_ne hp hne
    exact ⟨w, i, by simp [nextEvent, hin], hw, hi⟩

/-- Settles O35, by induction on the run. -/
theorem samplesLeaveInTheOrderTheyWereAppended : Obligations.SamplesLeaveInTheOrderTheyWereAppended := by
  intro is s t hm h ht
  obtain ⟨hle, hq⟩ := run_moves hm h ht
  refine ⟨hle, hq, ?_⟩
  rw [hq, List.length_drop, Nat.sub_add_cancel hle, List.length_append]

/-- Settles O46. -/
theorem commandsWriteOnlyWhatTheAccessTableSays : Obligations.CommandsWriteOnlyWhatTheAccessTableSays := by
  intro i s t h
  obtain ⟨hcfg, hinbox, hinputs, hbank⟩ := (exec_effect h).environment
  refine ⟨hcfg, hinbox, hinputs, hbank, exec_cap_of_not_inserts h, exec_sinkOut_of_ne_pop h, exec_queue_of_reads h,
    fun hi => exec_faultRegisters_of_not_canRaise h ?_, fun ht => (completes_of_inService h ht).2.faultRegisters⟩
  rcases hi with rfl | rfl | rfl | rfl <;> rfl

/-- Settles O47: the flag is unseen by every command but OVL. -/
theorem onlyOverlayReadsTheEnableFlag : Obligations.OnlyOverlayReadsTheEnableFlag := by
  intro i s t b hovl h
  by_cases hpop : i = .pop
  · subst hpop
    exact (execPop_withBgEn b s).trans (congrArg (nextThrough (withBgEn b)) h)
  · have hne : ¬∃ colors pal prio oam ofs, i = .ovl colors pal prio oam ofs := by simpa using hovl
    rw [(unseen_withBgEn b).exec s hpop fun hi => absurd hi hne, h, nextThrough_next]

/-- Settles O48: the banks are unseen by every command but POP. -/
theorem onlyPopReadsThePalettes : Obligations.OnlyPopReadsThePalettes := by
  intro i s t bg obj hpop h
  rw [(unseen_withPalettes bg obj).exec s hpop fun _ => rfl, h, nextThrough_next]

/-- Settles O49: the cycle closes with CLR; the capacity and the sink follow every fault-free run. -/
theorem aDriverCycleSendsOneColorPerPop : Obligations.ADriverCycleSendsOneColorPerPop := by
  intro is s t hcycle h ht
  obtain ⟨init, rfl⟩ := driverCycle_ends_with_clr hcycle
  exact ⟨run_clr_empties h ht, run_cap_le h ht, run_sends h ht⟩

/-- Settles O51. -/
theorem aRingSlotHoldsTheSampleAtItsOffset : Obligations.ARingSlotHoldsTheSampleAtItsOffset := by
  intro r s hr
  obtain ⟨hholds, -⟩ := Ring.represents_iff.mp hr
  exact ⟨hholds.cnt_eq, hholds.read_eq⟩

/-- Settles O1. -/
theorem resetGivesTheResetValues : Obligations.ResetGivesTheResetValues := by
  intro s rest h
  refine ⟨(s.withInbox rest).resetBlock, step_event h, rfl, rfl, rfl, rfl, rfl, rfl, ?_, rfl, rfl, rfl, rfl, rfl, rfl⟩
  exact (s.withInbox rest).resetBlock_halted

/-- A capacity within a legal MAX_CAP fits in the 16 bits of CAP_O (R7, R24). -/
theorem capO_toNat {s : State} (hp : s.cfg.legal = true) (h : s.cap ≤ s.cfg.maxCap) : s.capO.toNat = s.cap := by
  obtain ⟨-, -, hmax, -⟩ := legal_iff.mp hp
  rw [State.capO, BitVec.toNat_ofNat, Nat.mod_eq_of_lt (by omega)]

/-- Settles O5. -/
theorem capacityOutputEqualsTheCapacity : Obligations.CapacityOutputEqualsTheCapacity := by
  refine ⟨fun s hs => capO_toNat hs.params hs.capLeMax, fun p inputs hp => ?_⟩
  obtain ⟨-, -, -, -, -, hinitLe, -⟩ := legal_iff.mp hp
  exact capO_toNat (s := State.resetWith p inputs) hp hinitLe

/-- Settles O14. -/
theorem aStepRunsTheDecodedCommand : Obligations.AStepRunsTheDecodedCommand := by
  refine ⟨fun s w rest i hin hw => ?_, fun s w i hw => ?_⟩
  · exact (step_event hin).trans (present_of_decode hw _)
  · rw [step_withFetchWord, present_of_decode hw]

/-- Settles O17. -/
theorem inputsChangeOnlyBetweenCommands : Obligations.InputsChangeOnlyBetweenCommands := by
  refine ⟨fun s b rest hin => step_event hin, fun s p k c rest hin => ?_, fun s p k c rest hin => ?_,
    fun s t => step_inputs, fun s w rest hin => step_event hin⟩
  · exact ⟨bankWith s.inputs.bgPal p k c, step_event hin, bankEntry_bankWith_same _ p k c,
      fun p' k' hne => bankEntry_bankWith_other _ c hne⟩
  · exact ⟨bankWith s.inputs.objPal p k c, step_event hin, bankEntry_bankWith_same _ p k c,
      fun p' k' hne => bankEntry_bankWith_other _ c hne⟩

/-- Settles O50. -/
theorem theRingAtResetRepresentsTheResetState : Obligations.TheRingAtResetRepresentsTheResetState := by
  intro fresh p inputs hinit
  have hlen : ((List.range p.initCap).map fresh).length = p.initCap := by simp
  exact Ring.represents_iff.mpr ⟨Ring.holds_nil (hlen.symm ▸ hinit), hlen⟩

end Sys2Proof.Proofs.StateRules
end

section
/-! PROOFS. Reading back the words the encoder writes (R49 to R58). -/

namespace Sys2Proof

open Bits

/-! ### The encoder's words -/

/-- LANES determines the colors of a run of known length (R58). -/
theorem packLanes_inj {xs ys : List ColorIdx} (hlen : xs.length = ys.length) (h : packLanes xs = packLanes ys) :
    xs = ys := by
  induction xs generalizing ys with
  | nil => exact (List.length_eq_zero_iff.mp hlen.symm).symm
  | cons x xs ih =>
    cases ys with
    | nil => cases hlen
    | cons y ys =>
      simp only [packLanes] at h
      have hx : x = y := Fin.ext (by omega)
      rw [hx, ih (Nat.succ.inj hlen) (by omega)]

theorem lanesOf_eq {colors : List ColorIdx} {w : Nat} (hlen : colors.length = 8)
    (h : slice w 23 8 = packLanes colors) : lanesOf w = colors :=
  packLanes_inj hlen.symm ((packLanes_lanesOf w).trans h)

/-- Eight lanes fit the sixteen bits of LANES (R58). -/
theorem packLanes_lt_of_lanesFit {colors : List ColorIdx} (h : Instr.lanesFit colors = true) :
    packLanes colors < 2 ^ 16 := by
  have hlt := packLanes_lt colors
  rwa [beq_iff_eq.mp h] at hlt

/-- An instruction's fields fit in its command word, so encoding loses none of them (R49). -/
theorem encode_toNat {i : Instr} (h : i.wellFormed = true) : (encode i).toNat = i.opcode + i.operandBits := by
  suffices i.operandBits < 2 ^ 60 by
    have hop : i.opcode < 16 := by cases i <;> simp [Instr.opcode]
    rw [encode, BitVec.toNat_ofNat, Nat.mod_eq_of_lt (by omega)]
  cases i with
  | row colors pal prio =>
    have := packLanes_lt_of_lanesFit h
    have := bit_lt prio
    simp only [Instr.operandBits]
    omega
  | ovl colors pal prio oam ofs =>
    have := packLanes_lt_of_lanesFit (Bool.and_eq_true_iff.mp h).1
    have := bit_lt prio
    have := twos16_lt ofs
    simp only [Instr.operandBits]
    omega
  | get idx =>
    have : idx < 2 ^ 16 := of_decide_eq_true h
    simp only [Instr.operandBits]
    omega
  | set idx smp =>
    have : idx < 2 ^ 16 := of_decide_eq_true h
    simp only [Instr.operandBits]
    omega
  | enq smp => simp only [Instr.operandBits]; omega
  | enqb n smp0 smp1 smp2 => simp only [Instr.operandBits]; omega
  | _ => simp [Instr.operandBits]

/-! ### Fields read back -/

theorem whenClear_of_clear {reserved : List Nat} (i : Instr) (h : ∀ f ∈ reserved, f = 0) :
    whenClear reserved i = .ok i :=
  if_pos (by simpa using h)

theorem prioOf_eq {w : Nat} {prio : Bool} (h : slice w 27 27 = bit prio) : prioOf w = prio := by
  rw [prioOf, h]
  cases prio <;> rfl

theorem slotOf_eq {w k : Nat} {smp : SampleWord} (h : slice w (23 + 16 * k) (8 + 16 * k) = smp.toNat) :
    slotOf w k = smp := by
  rw [slotOf, h, BitVec.ofNat_toNat, BitVec.setWidth_eq]

/-! ### Decoding by format -/

theorem decode_row {colors : List ColorIdx} {pal : PalIdx} {prio : Bool}
    (h : (Instr.row colors pal prio).wellFormed = true) :
    decode (encode (.row colors pal prio)) = .ok (.row colors pal prio) := by
  have hw := encode_toNat h
  have hcolors := packLanes_lt_of_lanesFit h
  have hprio := bit_lt prio
  obtain ⟨hop, hbyte⟩ := Laws.OpcodeByte.row colors pal prio
  simp only [Instr.opcode, Instr.operandBits] at hw hop
  simp only [decode, hop]
  generalize (encode (.row colors pal prio)).toNat = w at *
  obtain ⟨hlanes, hpal, hbit, hclear⟩ : slice w 23 8 = packLanes colors ∧ slice w 26 24 = pal.val
      ∧ slice w 27 27 = bit prio ∧ slice w 63 28 = 0 := by
    simp only [hw, slice]
    omega
  rw [lanesOf_eq (beq_iff_eq.mp h) hlanes, palOf, hpal, Fin.ofNat_val_eq_self, prioOf_eq hbit]
  exact whenClear_of_clear _ (by simp [hbyte, hclear])

theorem decode_ovl {colors : List ColorIdx} {pal : PalIdx} {prio : Bool} {oam : OamIdx} {ofs : Int}
    (h : (Instr.ovl colors pal prio oam ofs).wellFormed = true) :
    decode (encode (.ovl colors pal prio oam ofs)) = .ok (.ovl colors pal prio oam ofs) := by
  have hw := encode_toNat h
  obtain ⟨hfit, hofs⟩ := Bool.and_eq_true_iff.mp h
  obtain ⟨hlo, hhi⟩ : -(2 ^ 15) ≤ ofs ∧ ofs < 2 ^ 15 := by simpa [Instr.ofsFits] using hofs
  have hcolors := packLanes_lt_of_lanesFit hfit
  have hprio := bit_lt prio
  have htwos := twos16_lt ofs
  obtain ⟨hop, hbyte⟩ := Laws.OpcodeByte.ovl colors pal prio oam ofs
  simp only [Instr.opcode, Instr.operandBits] at hw hop
  simp only [decode, hop]
  generalize (encode (.ovl colors pal prio oam ofs)).toNat = w at *
  obtain ⟨hlanes, hpal, hbit, hoam, hofs, hclear⟩ : slice w 23 8 = packLanes colors ∧ slice w 26 24 = pal.val
      ∧ slice w 27 27 = bit prio ∧ slice w 35 28 = oam.val ∧ slice w 51 36 = twos16 ofs ∧ slice w 63 52 = 0 := by
    simp only [hw, slice]
    omega
  rw [lanesOf_eq (beq_iff_eq.mp hfit) hlanes, palOf, hpal, Fin.ofNat_val_eq_self, prioOf_eq hbit, hoam,
    Fin.ofNat_val_eq_self, hofs, sext16_twos16 hlo hhi]
  exact whenClear_of_clear _ (by simp [hbyte, hclear])

theorem decode_get {idx : Nat} (h : (Instr.get idx).wellFormed = true) :
    decode (encode (.get idx)) = .ok (.get idx) := by
  have hw := encode_toNat h
  have hidx : idx < 2 ^ 16 := of_decide_eq_true h
  obtain ⟨hop, hbyte⟩ := Laws.OpcodeByte.get idx
  simp only [Instr.opcode, Instr.operandBits] at hw hop
  simp only [decode, hop]
  generalize (encode (.get idx)).toNat = w at *
  obtain ⟨hfield, hclear⟩ : slice w 23 8 = idx ∧ slice w 63 24 = 0 := by
    simp only [hw, slice]
    omega
  rw [hfield]
  exact whenClear_of_clear _ (by simp [hbyte, hclear])

theorem decode_set {idx : Nat} {smp : SampleWord} (h : (Instr.set idx smp).wellFormed = true) :
    decode (encode (.set idx smp)) = .ok (.set idx smp) := by
  have hw := encode_toNat h
  have hidx : idx < 2 ^ 16 := of_decide_eq_true h
  obtain ⟨hop, hbyte⟩ := Laws.OpcodeByte.set idx smp
  simp only [Instr.opcode, Instr.operandBits] at hw hop
  simp only [decode, hop]
  generalize (encode (.set idx smp)).toNat = w at *
  obtain ⟨hfield, hsmp, hclear⟩ : slice w 23 8 = idx ∧ slice w 39 24 = smp.toNat ∧ slice w 63 40 = 0 := by
    simp only [hw, slice]
    omega
  rw [hfield, hsmp, BitVec.ofNat_toNat, BitVec.setWidth_eq]
  exact whenClear_of_clear _ (by simp [hbyte, hclear])

theorem decode_enq {smp : SampleWord} : decode (encode (.enq smp)) = .ok (.enq smp) := by
  have hw := encode_toNat (i := .enq smp) rfl
  obtain ⟨hop, hbyte⟩ := Laws.OpcodeByte.enq smp
  simp only [Instr.opcode, Instr.operandBits] at hw hop
  simp only [decode, hop]
  generalize (encode (.enq smp)).toNat = w at *
  obtain ⟨hfield, hclear⟩ : slice w 23 8 = smp.toNat ∧ slice w 63 24 = 0 := by
    simp only [hw, slice]
    omega
  rw [slotOf_eq (k := 0) hfield]
  exact whenClear_of_clear _ (by simp [hbyte, hclear])

theorem decode_enqb {n : Fin 4} {smp0 smp1 smp2 : SampleWord} (h : (Instr.enqb n smp0 smp1 smp2).wellFormed = true) :
    decode (encode (.enqb n smp0 smp1 smp2)) = .ok (.enqb n smp0 smp1 smp2) := by
  have hw := encode_toNat h
  obtain ⟨hop, hbyte⟩ := Laws.OpcodeByte.enqb n smp0 smp1 smp2
  simp only [Instr.opcode, Instr.operandBits] at hw hop
  simp only [decode, hop]
  generalize (encode (.enqb n smp0 smp1 smp2)).toNat = w at *
  obtain ⟨h0, h1, h2, hn, hclear⟩ : slice w 23 8 = smp0.toNat ∧ slice w 39 24 = smp1.toNat
      ∧ slice w 55 40 = smp2.toNat ∧ slice w 57 56 = n.val ∧ slice w 63 58 = 0 := by
    simp only [hw, slice]
    omega
  have hs0 : slotOf w 0 = smp0 := slotOf_eq h0
  have hs1 : slotOf w 1 = smp1 := slotOf_eq h1
  have hs2 : slotOf w 2 = smp2 := slotOf_eq h2
  rw [decodeBatch, hs0, hs1, hs2, hn, Fin.ofNat_val_eq_self, if_pos (by simp [hbyte, hclear])]
  exact if_pos h

/-- The decoder reads back every command that has a word (R49 to R59). -/
theorem decode_encode {i : Instr} (h : i.wellFormed = true) : decode (encode i) = .ok i := by
  cases i with
  | row colors pal prio => exact decode_row h
  | ovl colors pal prio oam ofs => exact decode_ovl h
  | get idx => exact decode_get h
  | set idx smp => exact decode_set h
  | enq smp => exact decode_enq
  | enqb n smp0 smp1 smp2 => exact decode_enqb h
  | _ => rfl

end Sys2Proof
end

section
/-! PROOFS. The host's command stream against the commands it carries (R40). -/

namespace Sys2Proof.Machine

open Sys2Proof.Bits Sys2Proof.Safety Sys2Proof.Claims

theorem unseen_withInbox (events : List PortEvent) : Unseen (fun s => s.withInbox events) where
  maxCap _ := rfl
  ovlStart _ := rfl
  q _ := rfl
  cap _ := rfl
  halted _ := rfl
  respond _ _ _ := rfl
  withQueue _ _ := rfl
  withCap _ _ := rfl
  recordFault _ _ _ _ _ := rfl
  forgetQueue _ := rfl

/-- No command sees what the host issues after it (R40). -/
theorem exec_withInbox (i : Instr) (events : List PortEvent) (s : State) :
    exec i (s.withInbox events) = nextThrough (fun t => t.withInbox events) (exec i s) := by
  have hr := unseen_withInbox events
  by_cases hpop : i = .pop
  · subst hpop
    exact hr.unlessHalted s (hr.removeFront s 0x4 fun _ _ => rfl)
  · exact hr.exec s hpop fun _ => rfl

/-- The next word of the stream runs as the command it encodes, on the state with the rest of the stream to come. -/
theorem step_encoded {i : Instr} (h : i.wellFormed = true) (events : List PortEvent) (s : State) :
    step (s.withInbox (.command (encode i) :: events)) = nextThrough (fun t => t.withInbox events) (exec i s) :=
  calc step (s.withInbox (.command (encode i) :: events))
      _ = portStep (.command (encode i)) (s.withInbox events) := step_event (State.withInbox_inbox s _)
      _ = exec i (s.withInbox events) := present_of_decode (decode_encode h) _
      _ = nextThrough (fun t => t.withInbox events) (exec i s) := exec_withInbox i events s

end Sys2Proof.Machine

namespace Sys2Proof.Safety

open Sys2Proof.Bits Sys2Proof.Machine

/-! ### Steps one after another -/

/-- Further steps are taken from a next state alone. -/
theorem runSteps_succ (n : Nat) (s : State) :
    runSteps (n + 1) s =
      match step s with
      | .next t => runSteps n t
      | .fault r => .fault r
      | .refused r => .refused r := by
  cases h : step s
  all_goals
    have h : core.step s = _ := h
    simp only [runSteps, Host.Core.run, h]
    rfl

/-- Stepping over the words of commands is running the commands: each leaves an empty stream empty. -/
theorem runSteps_encoded {is : List Instr} {s : State} (hwf : ∀ i ∈ is, i.wellFormed = true)
    (hin : s.inbox = []) :
    runSteps is.length (s.withInbox (is.map fun i => .command (encode i))) = runCommands is s := by
  induction is generalizing s with
  | nil =>
    have hs : s.withInbox [] = s := by rw [← hin]; rfl
    exact congrArg Host.Outcome.next hs
  | cons i is ih =>
    obtain ⟨hi, his⟩ := List.forall_mem_cons.mp hwf
    have hstep := step_encoded hi (is.map fun i => .command (encode i)) s
    rw [List.length_cons, List.map_cons, runSteps_succ, hstep, runCommands]
    cases he : exec i s with
    | next t =>
      obtain ⟨-, hinbox, -⟩ := (exec_effect he).environment
      exact ih his (hinbox.trans hin)
    | fault r => rfl
    | refused r => rfl

end Sys2Proof.Safety
end

section
/-! PROOFS. What commands answer where they raise nothing: inserts with room, and overlays lane by lane (R38, R68,
R81). -/

namespace Sys2Proof.Machine

open Sys2Proof.Bits Sys2Proof.Safety Sys2Proof.Claims

/-! ### Inserts with room (R68) -/

/-- Since MAX_CAP is a power of two, room under MAX_CAP is room under the capacity `Grow` takes. -/
theorem grow_of_room {n : Nat} {s : State} (hp : s.cfg.legal = true) (hroom : s.q.length + n ≤ s.cfg.maxCap) :
    ∃ c, Grown s n c ∧ grow n s = some (s.withCap c) := by
  by_cases hfits : s.q.length + n ≤ s.cap
  · exact ⟨s.cap, .inl ⟨hfits, rfl⟩, grow_of_fits hfits⟩
  · have hfull : s.cap < s.q.length + n := by omega
    obtain ⟨hpow, -⟩ := legal_iff.mp hp
    obtain ⟨k, hk⟩ := isPow2_iff.mp hpow
    have hmax : nextPow2 (s.q.length + n) ≤ s.cfg.maxCap := hk ▸ nextPow2_le_pow (hk ▸ hroom)
    exact ⟨_, .inr ⟨hfull, isNextPow2_nextPow2 _⟩, by rw [grow_of_full hfull, if_pos hmax]⟩

theorem appendBack_of_room {op : Nat} {xs : List Sample} {s : State} (hp : s.cfg.legal = true)
    (hroom : s.q.length + xs.length ≤ s.cfg.maxCap) :
    ∃ c, Grown s xs.length c ∧ appendBack op xs s = .next (appendedWith s xs c) := by
  obtain ⟨c, hc, hg⟩ := grow_of_room hp hroom
  refine ⟨c, hc, ?_⟩
  rw [appendBack, hg]
  rfl

/-! ### Commands that complete -/

/-- The converse of `exec_outcome`: a command that can complete from a state in service does. -/
theorem Completes.exec {s t : State} {i : Instr} (hs : InService s) (h : Completes s i t) : exec i s = .next t := by
  cases h
  all_goals refine (unlessHalted_running hs _).trans ?_
  case len => rfl
  case cnt => rfl
  case clr => rfl
  case rclr => rfl
  case get hx => rw [sampleAt_ofNat, hx]; rfl
  case set hx hidx => rw [hx, sampleAt_ofNat, List.getElem?_eq_getElem hidx]; rfl
  case ovl hq => rw [hq]; rfl
  case row hg => rw [appendBack, hg]; rfl
  case enq hx hg => simp only [hx, appendBack, List.length_singleton, hg]; rfl
  case enqb hxs hg => simp only [hxs, appendBack, hg]; rfl
  case pop hq => exact removeFront_cons hq _
  case drop hq => exact removeFront_cons hq _
  case deq hq => exact removeFront_cons hq _

/-! ### Overlays -/

/-- A replaced sample is refused to the sprite that replaced it, since equal ranks do not win (R79). -/
@[simp] theorem mux_painted (old : Sample) (bgEn : Bool) (color : ColorIdx) (pal : PalIdx) (prio : Bool)
    (oam : OamIdx) :
    mux (painted old bgEn color pal prio oam) bgEn prio oam = false := by
  unfold painted
  cases h : mux old bgEn prio oam with
  | true => simp [mux]
  | false => simpa using h

section
variable {start : Int} {bgEn : Bool} {pal : PalIdx} {prio : Bool} {oam : OamIdx} {ofs : Int} {j : Nat} {c : ColorIdx}
  {colors : List ColorIdx} {q q' : List Sample} {old : Sample}

/-- A run without a shown color does nothing, and checks no target (R81). -/
theorem overlay_transparent (h : ∀ c ∈ colors, c = 0) : overlay start bgEn pal prio oam ofs j colors q = .ok q := by
  induction colors generalizing j with
  | nil => rfl
  | cons c rest ih =>
    rw [overlay_skip (.inr (h c List.mem_cons_self)), ih fun d hd => h d (List.mem_cons_of_mem c hd)]

/-- A shown lane paints its target. -/
theorem overlay_paint (h : ¬((j : Int) < start ∨ c = 0)) (ht : sampleAt q (j - ofs) = some old) :
    overlay start bgEn pal prio oam ofs j (c :: colors) q
      = overlay start bgEn pal prio oam ofs (j + 1) colors
          (q.set (j - ofs).toNat (painted old bgEn c pal prio oam)) := by
  obtain ⟨-, hold⟩ := sampleAt_some_iff.mp ht
  rw [overlay_lane h ht, painted]
  split
  · rfl
  · obtain ⟨hlt, rfl⟩ := List.getElem?_eq_some_iff.mp hold
    rw [List.set_getElem_self]

theorem sampleAt_set_same {k : Int} {x : Sample} (h : sampleAt q k = some old) :
    sampleAt (q.set k.toNat x) k = some x := by
  obtain ⟨hk, hold⟩ := sampleAt_some_iff.mp h
  exact sampleAt_some_iff.mpr ⟨hk, List.getElem?_set_self (List.getElem?_eq_some_iff.mp hold).1⟩

theorem sampleAt_set_other {i k : Int} (hk : 0 ≤ k) (hne : i ≠ k) (x : Sample) :
    sampleAt (q.set k.toNat x) i = sampleAt q i := by
  unfold sampleAt
  split
  · exact List.getElem?_set_ne (by omega)
  · rfl

/-- The lanes ascend, so a run leaves the positions before its first target alone. -/
theorem sampleAt_overlay_before (h : overlay start bgEn pal prio oam ofs j colors q = .ok q') {i : Int}
    (hi : i < j - ofs) : sampleAt q' i = sampleAt q i := by
  induction colors generalizing j q with
  | nil => rw [Except.ok.inj h]
  | cons c rest ih =>
    have hi' : i < (j + 1 : Nat) - ofs := by omega
    by_cases hskip : (j : Int) < start ∨ c = 0
    · exact ih (overlay_skip hskip ▸ h) hi'
    · cases ht : sampleAt q (j - ofs) with
      | none => simp [overlay_fault hskip ht] at h
      | some old =>
        have hk := (sampleAt_some_iff.mp ht).1
        rw [ih (overlay_paint hskip ht ▸ h) hi', sampleAt_set_other hk (by omega)]

/-- Repeated, an overlay finds each target painted by its own lane, where the mux replaces nothing (R39). -/
theorem overlay_repeated (h : overlay start bgEn pal prio oam ofs j colors q = .ok q') :
    overlay start bgEn pal prio oam ofs j colors q' = .ok q' := by
  induction colors generalizing j q with
  | nil => rfl
  | cons c rest ih =>
    by_cases hskip : (j : Int) < start ∨ c = 0
    · rw [overlay_skip hskip] at h ⊢
      exact ih h
    · cases ht : sampleAt q (j - ofs) with
      | none => simp [overlay_fault hskip ht] at h
      | some old =>
        rw [overlay_paint hskip ht] at h
        have hpainted : sampleAt q' (j - ofs) = some (painted old bgEn c pal prio oam) := by
          rw [sampleAt_overlay_before h (by omega), sampleAt_set_same ht]
        rw [overlay_lane hskip hpainted, mux_painted]
        exact ih h

end

end Sys2Proof.Machine
end

section
/-! PROOFS. The register bank's operations where a name selects a register and where it selects none (R46, R47). -/

namespace Sys2Proof.Machine

@[simp] theorem BankRegister.write_named (p : Params) (v : Nat) (r : BankRegister) (name : RegName) :
    (r.write p v).named name = r.named name := by
  cases name <;> simp [BankRegister.named]

/-- A value of REG_W bits is written as it is (R46). -/
theorem BankRegister.write_of_lt {p : Params} {v : Nat} {r : BankRegister} (hm : r.mode ≠ .readOnly)
    (hv : v < 2 ^ p.regW) : r.write p v = { r with value := v } := by
  unfold BankRegister.write
  cases h : r.mode with
  | readOnly => exact absurd h hm
  | writeOnly => simp [Nat.mod_eq_of_lt hv]
  | readWrite => simp [Nat.mod_eq_of_lt hv]

theorem BankRegister.write_of_readOnly {p : Params} {v : Nat} {r : BankRegister} (hm : r.mode = .readOnly) :
    r.write p v = r := by
  simp [BankRegister.write, hm]

theorem BankRegister.read_of_writeOnly {p : Params} {r : BankRegister} (hm : r.mode = .writeOnly) :
    r.read p = 2 ^ p.regW - 1 := by
  simp [BankRegister.read, fillValue, hm]

theorem BankRegister.read_of_ne_writeOnly {p : Params} {r : BankRegister} (hm : r.mode ≠ .writeOnly) :
    r.read p = r.value := by
  unfold BankRegister.read
  cases h : r.mode with
  | writeOnly => exact absurd h hm
  | readOnly => rfl
  | readWrite => rfl

/-! ### The first register of a name -/

section
variable {p : Params} {name : RegName} {v : Nat} {r : BankRegister} {rs : List BankRegister}

theorem writeFirst_named (h : r.named name = true) : writeFirst p name v (r :: rs) = r.write p v :: rs := by
  rw [writeFirst, if_pos h]

theorem writeFirst_not_named (h : r.named name = false) :
    writeFirst p name v (r :: rs) = r :: writeFirst p name v rs := by
  rw [writeFirst, if_neg (by simp [h])]

@[simp] theorem writeFirst_length (p : Params) (name : RegName) (v : Nat) (rs : List BankRegister) :
    (writeFirst p name v rs).length = rs.length := by
  simpa using congrArg List.length (writeFirst_identities p name v rs)

/-- The written register is the one the name selects afterwards. -/
theorem find?_writeFirst :
    (writeFirst p name v rs).find? (fun r => r.named name)
      = (rs.find? fun r => r.named name).map (BankRegister.write p v) := by
  induction rs with
  | nil => rfl
  | cons r rest ih =>
    cases h : r.named name with
    | true => simp [writeFirst_named h, h]
    | false => simp [writeFirst_not_named h, h, ih]

/-- A register of another name keeps its place and its contents. -/
theorem getElem?_writeFirst_of_not_named {k : Nat} {other : BankRegister} (hk : rs[k]? = some other)
    (hother : other.named name = false) : (writeFirst p name v rs)[k]? = some other := by
  induction rs generalizing k with
  | nil => cases hk
  | cons r rest ih =>
    cases h : r.named name with
    | true =>
      rw [writeFirst_named h]
      cases k with
      | zero =>
        cases hk
        simp [h] at hother
      | succ k => exact hk
    | false =>
      rw [writeFirst_not_named h]
      cases k with
      | zero => exact hk
      | succ k => exact ih hk

/-- A write that the selected register ignores leaves the bank as it was. -/
theorem writeFirst_eq_self (hr : rs.find? (fun r => r.named name) = some r) (hw : r.write p v = r) :
    writeFirst p name v rs = rs := by
  induction rs with
  | nil => rfl
  | cons r₁ rest ih =>
    cases h : r₁.named name with
    | true =>
      obtain rfl : r₁ = r := by simpa [h] using hr
      rw [writeFirst_named h, hw]
    | false => rw [writeFirst_not_named h, ih (by simpa [h] using hr)]

end

/-! ### Reads and writes of the bank -/

section
variable {name : RegName} {s : State} {r : BankRegister}

theorem bankReadStep_found (h : s.bank.registers.find? (fun r => r.named name) = some r) :
    bankReadStep name s = .next (s.withBank { s.bank with readData := some (r.read s.cfg) }) := by
  simp [bankReadStep, h]

theorem bankWriteStep_found (v : Nat) (h : s.bank.registers.find? (fun r => r.named name) = some r) :
    bankWriteStep name v s
      = .next (s.withBank { s.bank with registers := writeFirst s.cfg name v s.bank.registers }) := by
  simp [bankWriteStep, h]

/-- Looking up an unknown identity is a fault, whether to read or to write (R47, U18). -/
theorem bankStep_unknown {id : Nat} (v : Nat) (h : ∀ r ∈ s.bank.registers, r.identity ≠ id) :
    bankReadStep (.byIdentity id) s = .fault (.unknownRegister id)
      ∧ bankWriteStep (.byIdentity id) v s = .fault (.unknownRegister id) := by
  have hnone : s.bank.registers.find? (fun r => r.named (.byIdentity id)) = none := by
    simpa [BankRegister.named] using h
  simp [bankReadStep, bankWriteStep, hnone]

/-- A raw address where no register lies answers a free value to a read and ignores a write (R47; log entry 12). -/
theorem bankStep_unmapped {addr : Nat} (v : Nat) (h : ∀ r ∈ s.bank.registers, r.addr ≠ addr) :
    bankReadStep (.byAddress addr) s
        = .next { s with
            bank := { s.bank with readData := some (Config.freeRegData s.free % 2 ^ s.cfg.regW) }
            free := s.free + 1 }
      ∧ bankWriteStep (.byAddress addr) v s = .next s := by
  have hnone : s.bank.registers.find? (fun r => r.named (.byAddress addr)) = none := by
    simpa [BankRegister.named] using h
  simp [bankReadStep, bankWriteStep, hnone]

end

end Sys2Proof.Machine
end

section
/-! PROOFS. The statements about memory (`20_memory.md`). -/

namespace Sys2Proof.Proofs.Memory

open Sys2Proof.Bits Sys2Proof.Machine Sys2Proof.Safety Sys2Proof.Claims

/-- Settles O15. -/
theorem commandsTakeEffectInTheOrderIssued : Obligations.CommandsTakeEffectInTheOrderIssued :=
  fun _ _ hwf hin => runSteps_encoded hwf hin

/-- Settles O36. -/
theorem rowAppendsEightSamplesLeftToRight : Obligations.RowAppendsEightSamplesLeftToRight := by
  intro s colors pal prio hs hp hcolors hroom
  have hlen : (rowSamples colors pal prio).length = 8 := by rw [rowSamples_length, hcolors]
  obtain ⟨c, hc, happend⟩ := appendBack_of_room (op := 0x2) hp (hlen ▸ hroom)
  refine ⟨c, rowSamples colors pal prio, hlen ▸ hc, ?_, hlen, fun k color hk => ?_⟩
  · exact (unlessHalted_running hs _).trans happend
  · simp [rowSamples, hk]

/-- Settles O39. -/
theorem anAllZeroOverlayChangesNothing : Obligations.AnAllZeroOverlayChangesNothing := by
  intro s colors pal prio oam ofs hs hzero
  exact Completes.exec hs (.ovl (overlay_transparent hzero))

/-- Settles O40: what either command completes to, it completes to again. -/
theorem setAndOverlayAreIdempotent : Obligations.SetAndOverlayAreIdempotent := by
  refine ⟨fun s t idx smp h ht => ?_, fun s t colors pal prio oam ofs h ht => ?_⟩
  · obtain ⟨-, hc⟩ := completes_of_inService h ht
    cases hc with
    | set hx hidx =>
      refine (Completes.exec ht (.set hx (by simpa using hidx))).trans ?_
      simp only [State.respond_q, State.withQueue_q, List.set_set]
      rfl
  · obtain ⟨-, hc⟩ := completes_of_inService h ht
    cases hc with
    | ovl hq => exact Completes.exec ht (.ovl (overlay_repeated hq))

/-- Settles O53: the step runs on the register the lookup finds. -/
theorem theRegisterBankFollowsItsAccessModes : Obligations.TheRegisterBankFollowsItsAccessModes := by
  intro s rest name r hr
  refine ⟨fun hin hm => ?_, fun hin hm => ?_, fun v hin hm => ?_, fun v hin hm hv => ?_⟩
  · rw [step_event hin, ← BankRegister.read_of_writeOnly hm]
    exact bankReadStep_found (s := s.withInbox rest) hr
  · rw [step_event hin, ← BankRegister.read_of_ne_writeOnly (p := s.cfg) hm]
    exact bankReadStep_found (s := s.withInbox rest) hr
  · have hsame := writeFirst_eq_self (v := v) hr (BankRegister.write_of_readOnly (p := s.cfg) hm)
    refine (step_event hin).trans ((bankWriteStep_found (s := s.withInbox rest) v hr).trans ?_)
    simp only [State.withInbox_cfg, State.withInbox_bank, hsame]
    rfl
  · refine ⟨writeFirst s.cfg name v s.bank.registers, ?_, ?_, writeFirst_length _ _ _ _,
      fun k other => getElem?_writeFirst_of_not_named⟩
    · exact (step_event hin).trans (bankWriteStep_found (s := s.withInbox rest) v hr)
    · rw [find?_writeFirst, hr, Option.map_some, BankRegister.write_of_lt hm hv]

/-- Settles O54. -/
theorem anUnknownRegisterIdentityFaults : Obligations.AnUnknownRegisterIdentityFaults := by
  intro s rest id addr v hid haddr
  obtain ⟨hread, hwrite⟩ := bankStep_unknown (s := s.withInbox rest) v hid
  obtain ⟨hrawRead, hrawWrite⟩ := bankStep_unmapped (s := s.withInbox rest) v haddr
  exact ⟨fun hin => (step_event hin).trans hread, fun hin => (step_event hin).trans hwrite,
    fun hin => ⟨_, (step_event hin).trans hrawRead⟩, fun hin => (step_event hin).trans hrawWrite⟩

end Sys2Proof.Proofs.Memory
end

section
/-! PROOFS. What the decoder reads, format by format, and the match and mask table of R62 as fields of a word. -/

namespace Sys2Proof

open Bits Claims

/-! ### Formats -/

/-- A word has opcode `op`, and 0 in its format's reserved fields: bits [7:4] and those from `top` up (R50 to R57). -/
def Selects (w op top : Nat) : Prop := slice w 3 0 = op ∧ slice w 7 4 = 0 ∧ slice w 63 top = 0

/-- A row of R62 as the fields of a word that it fixes: the opcode, and the lowest bit of the reserved top field. -/
structure Format where
  mnemonic : String
  op : Nat
  top : Nat
deriving DecidableEq

/-- The formats of R51 to R57; an operandless command has no field between its reserved ones. -/
def formats : List Format :=
  [⟨"LEN", 0x1, 8⟩, ⟨"ROW", 0x2, 28⟩, ⟨"OVL", 0x3, 52⟩, ⟨"POP", 0x4, 8⟩, ⟨"DROP", 0x5, 8⟩, ⟨"CLR", 0x6, 8⟩,
    ⟨"CNT", 0x8, 8⟩, ⟨"GET", 0x9, 24⟩, ⟨"SET", 0xA, 40⟩, ⟨"ENQ", 0xB, 24⟩, ⟨"ENQB", 0xC, 58⟩, ⟨"DEQ", 0xD, 8⟩,
    ⟨"RCLR", 0xE, 8⟩]

/-- The pattern and mask of a format: ones over the opcode and over the reserved fields. -/
def Format.row (f : Format) : OpcodeRow :=
  ⟨f.mnemonic, BitVec.ofNat 64 f.op, BitVec.ofNat 64 ((2 ^ 64 - 2 ^ f.top) + (2 ^ 8 - 1))⟩

theorem opcodeRows_eq : opcodeRows = formats.map Format.row := by decide

theorem format_bounds : ∀ f ∈ formats, f.op < 16 ∧ 8 ≤ f.top ∧ f.top ≤ 63 := by decide

theorem format_eq_of_op : ∀ f ∈ formats, ∀ g ∈ formats, f.op = g.op → f = g := by decide

theorem format_enqb_iff : ∀ f ∈ formats, f.mnemonic = "ENQB" ↔ f.op = 0xC := by decide

/-- The opcodes without a format are those R63 (a) reserves. -/
theorem reserved_iff_no_format : ∀ op < 16, (op = 0x0 ∨ op = 0x7 ∨ op = 0xF) ↔ ∀ f ∈ formats, f.op ≠ op := by decide

section
variable {f : Format} (hf : f ∈ formats)
include hf

theorem Format.row_pattern_toNat : f.row.pattern.toNat = f.op := by
  obtain ⟨hop, -⟩ := format_bounds f hf
  simp only [Format.row, BitVec.toNat_ofNat]
  omega

theorem Format.row_mask_toNat : f.row.mask.toNat = (2 ^ 64 - 2 ^ f.top) + (2 ^ 8 - 1) := by
  obtain ⟨-, hlo, hhi⟩ := format_bounds f hf
  have : 2 ^ 8 ≤ 2 ^ f.top := Nat.pow_le_pow_right (by omega) hlo
  have : 2 ^ f.top ≤ 2 ^ 63 := Nat.pow_le_pow_right (by omega) hhi
  simp only [Format.row, BitVec.toNat_ofNat]
  omega

/-- A masked word keeps its low byte and its top field. -/
theorem Format.and_mask_toNat (w : Cmd) :
    (w &&& f.row.mask).toNat = w.toNat / 2 ^ f.top * 2 ^ f.top + w.toNat % 2 ^ 8 := by
  obtain ⟨-, hlo, hhi⟩ := format_bounds f hf
  rw [BitVec.toNat_and, Format.row_mask_toNat hf, and_mask _ 8 f.top w.isLt hlo (by omega)]

end

/-- What a word holds from bit `top` up, as a multiple of 256 that is 0 exactly when that field is. -/
theorem top_field (w : Cmd) {top : Nat} (hlo : 8 ≤ top) (hhi : top ≤ 63) :
    ∃ x, w.toNat / 2 ^ top * 2 ^ top = 256 * x ∧ (slice w.toNat 63 top = 0 ↔ x = 0) := by
  have hpow : 2 ^ top = 256 * 2 ^ (top - 8) := by rw [← Nat.pow_add 2 8, show 8 + (top - 8) = top by omega]
  have hlt : w.toNat / 2 ^ top < 2 ^ (63 + 1 - top) := by
    refine Nat.div_lt_of_lt_mul ?_
    rw [← Nat.pow_add, show top + (63 + 1 - top) = 64 by omega]
    exact w.isLt
  refine ⟨w.toNat / 2 ^ top * 2 ^ (top - 8), by rw [← Nat.mul_left_comm, ← hpow], ?_⟩
  rw [slice_eq, Nat.mod_eq_of_lt hlt]
  simp

/-- Matching a row of the table is having its format's opcode and reserved zeros (R62). -/
theorem and_mask_eq_pattern_iff {f : Format} (hf : f ∈ formats) (w : Cmd) :
    w &&& f.row.mask = f.row.pattern ↔ Selects w.toNat f.op f.top := by
  obtain ⟨hop, hlo, hhi⟩ := format_bounds f hf
  obtain ⟨x, hx, htop⟩ := top_field w hlo hhi
  rw [← BitVec.toNat_inj, Format.and_mask_toNat hf, Format.row_pattern_toNat hf, Selects, htop, hx, slice_eq, slice_eq]
  omega

/-- A bit set under a row's mask above the opcode is a reserved bit set (R63 (b)). -/
theorem and_reserved_eq_zero_iff {f : Format} (hf : f ∈ formats) (w : Cmd) :
    w &&& (f.row.mask &&& ~~~(0xF : Cmd)) = 0 ↔ slice w.toNat 7 4 = 0 ∧ slice w.toNat 63 f.top = 0 := by
  obtain ⟨-, hlo, hhi⟩ := format_bounds f hf
  obtain ⟨x, hx, htop⟩ := top_field w hlo hhi
  have hand : ((w &&& f.row.mask) &&& ~~~(0xF : Cmd)).toNat = (w &&& f.row.mask).toNat / 16 * 16 := by
    rw [BitVec.toNat_and]
    exact (and_mask _ 0 4 (BitVec.isLt _) (by omega) (by omega)).trans (by simp [Nat.mod_one])
  rw [← BitVec.and_assoc, ← BitVec.toNat_inj, hand, Format.and_mask_toNat hf, htop, hx, slice_eq,
    show (0 : Cmd).toNat = 0 from rfl]
  omega

/-! ### What the decoder reads -/

/-- Every slot `SMPk` with `k >= N` of a word in format B is 0 (R57, R63 (c)). -/
def UnusedSlotsZero (w : Nat) : Prop := ∀ k < 3, slice w 57 56 ≤ k → slice w (23 + 16 * k) (8 + 16 * k) = 0

/-- The command a word carries: its opcode's, with each operand read from its field (R51 to R57). -/
inductive Reads (w : Nat) : Instr → Prop where
  | len (h : Selects w 0x1 8) : Reads w .len
  | row (h : Selects w 0x2 28) : Reads w (.row (lanesOf w) (palOf w) (prioOf w))
  | ovl (h : Selects w 0x3 52) :
    Reads w (.ovl (lanesOf w) (palOf w) (prioOf w) (Fin.ofNat 256 (slice w 35 28)) (sext16 (slice w 51 36)))
  | pop (h : Selects w 0x4 8) : Reads w .pop
  | drop (h : Selects w 0x5 8) : Reads w .drop
  | clr (h : Selects w 0x6 8) : Reads w .clr
  | cnt (h : Selects w 0x8 8) : Reads w .cnt
  | get (h : Selects w 0x9 24) : Reads w (.get (slice w 23 8))
  | set (h : Selects w 0xA 40) : Reads w (.set (slice w 23 8) (BitVec.ofNat 16 (slice w 39 24)))
  | enq (h : Selects w 0xB 24) : Reads w (.enq (slotOf w 0))
  | enqb (h : Selects w 0xC 58) (hslots : UnusedSlotsZero w) :
    Reads w (.enqb (Fin.ofNat 4 (slice w 57 56)) (slotOf w 0) (slotOf w 1) (slotOf w 2))
  | deq (h : Selects w 0xD 8) : Reads w .deq
  | rclr (h : Selects w 0xE 8) : Reads w .rclr

theorem slotOf_toNat (w k : Nat) : (slotOf w k).toNat = slice w (23 + 16 * k) (8 + 16 * k) := by
  have := slice_lt w (23 + 16 * k) (8 + 16 * k)
  rw [show 23 + 16 * k + 1 - (8 + 16 * k) = 16 by omega] at this
  rw [slotOf, BitVec.toNat_ofNat, Nat.mod_eq_of_lt this]

/-- The decoder's test of the unused slots, slot by slot. -/
theorem unusedSlotsClear_iff (w : Nat) :
    Instr.unusedSlotsClear (Fin.ofNat 4 (slice w 57 56)) (slotOf w 0) (slotOf w 1) (slotOf w 2) = true
      ↔ UnusedSlotsZero w := by
  have hslot (k : Nat) : slotOf w k = 0 ↔ slice w (23 + 16 * k) (8 + 16 * k) = 0 := by
    rw [← slotOf_toNat]
    exact BitVec.toNat_inj.symm
  have hthree (p : Nat → Prop) : (∀ k < 3, p k) ↔ p 0 ∧ p 1 ∧ p 2 := by
    refine ⟨fun h => ⟨h 0 (by omega), h 1 (by omega), h 2 (by omega)⟩, fun ⟨h0, h1, h2⟩ k hk => ?_⟩
    interval_cases k <;> assumption
  have hn : slice w 57 56 < 4 := slice_lt w 57 56
  simp only [UnusedSlotsZero, ← hslot, hthree, Instr.unusedSlotsClear]
  generalize slice w 57 56 = n at *
  interval_cases n <;> simp

theorem whenClear_ok_iff {reserved : List Nat} {i j : Instr} :
    whenClear reserved i = .ok j ↔ i = j ∧ ∀ f ∈ reserved, f = 0 := by
  refine ⟨fun h => ?_, fun ⟨hi, h⟩ => hi ▸ whenClear_of_clear i h⟩
  obtain ⟨rfl, hclear⟩ := whenClear_ok h
  exact ⟨rfl, by simpa using hclear⟩

/-- Without operands, all bits above the opcode are reserved (R51). -/
theorem whenClear_operandless_iff {w op : Nat} {i j : Instr} (hop : slice w 3 0 = op) :
    whenClear [slice w 63 4] i = .ok j ↔ i = j ∧ Selects w op 8 := by
  have hsplit : slice w 63 4 = 0 ↔ slice w 7 4 = 0 ∧ slice w 63 8 = 0 := by
    simp only [slice]
    omega
  simp [whenClear_ok_iff, Selects, hop, hsplit]

theorem whenClear_operands_iff {w op top : Nat} {i j : Instr} (hop : slice w 3 0 = op) :
    whenClear [slice w 7 4, slice w 63 top] i = .ok j ↔ i = j ∧ Selects w op top := by
  simp [whenClear_ok_iff, Selects, hop]

theorem decodeBatch_ok_iff {w : Nat} {j : Instr} (hop : slice w 3 0 = 0xC) :
    decodeBatch w = .ok j
      ↔ .enqb (Fin.ofNat 4 (slice w 57 56)) (slotOf w 0) (slotOf w 1) (slotOf w 2) = j
        ∧ Selects w 0xC 58 ∧ UnusedSlotsZero w := by
  rw [← unusedSlotsClear_iff, decodeBatch, Selects]
  split
  · split <;> simp_all
  · simp_all

/-- `decode` answers the command a word carries, and refuses a word that carries none (R64). -/
theorem decode_ok_iff {w : Cmd} {i : Instr} : decode w = .ok i ↔ Reads w.toNat i := by
  constructor
  · intro h
    simp only [decode] at h
    split at h
    next hop => obtain ⟨rfl, hw⟩ := (whenClear_operandless_iff hop).mp h; exact .len hw
    next hop => obtain ⟨rfl, hw⟩ := (whenClear_operands_iff hop).mp h; exact .row hw
    next hop => obtain ⟨rfl, hw⟩ := (whenClear_operands_iff hop).mp h; exact .ovl hw
    next hop => obtain ⟨rfl, hw⟩ := (whenClear_operandless_iff hop).mp h; exact .pop hw
    next hop => obtain ⟨rfl, hw⟩ := (whenClear_operandless_iff hop).mp h; exact .drop hw
    next hop => obtain ⟨rfl, hw⟩ := (whenClear_operandless_iff hop).mp h; exact .clr hw
    next hop => obtain ⟨rfl, hw⟩ := (whenClear_operandless_iff hop).mp h; exact .cnt hw
    next hop => obtain ⟨rfl, hw⟩ := (whenClear_operands_iff hop).mp h; exact .get hw
    next hop => obtain ⟨rfl, hw⟩ := (whenClear_operands_iff hop).mp h; exact .set hw
    next hop => obtain ⟨rfl, hw⟩ := (whenClear_operands_iff hop).mp h; exact .enq hw
    next hop => obtain ⟨rfl, hw, hslots⟩ := (decodeBatch_ok_iff hop).mp h; exact .enqb hw hslots
    next hop => obtain ⟨rfl, hw⟩ := (whenClear_operandless_iff hop).mp h; exact .deq hw
    next hop => obtain ⟨rfl, hw⟩ := (whenClear_operandless_iff hop).mp h; exact .rclr hw
    next => cases h
  · intro h
    cases h with
    | enqb h hslots => simp only [decode, h.1]; exact (decodeBatch_ok_iff h.1).mpr ⟨rfl, h, hslots⟩
    | _ h =>
      simp only [decode, h.1, whenClear_operandless_iff h.1, whenClear_operands_iff h.1]
      exact ⟨trivial, h⟩

/-! ### Both directions -/

/-- The command a word carries has operands that fit their fields. -/
theorem Reads.wellFormed {w : Nat} {i : Instr} (h : Reads w i) : i.wellFormed = true := by
  cases h with
  | ovl _ =>
    have := sext16_range (slice_lt w 51 36)
    simpa [Instr.wellFormed, Instr.lanesFit, Instr.ofsFits] using this
  | get _ => exact decide_eq_true (slice_lt w 23 8)
  | set _ => exact decide_eq_true (slice_lt w 23 8)
  | enqb _ hslots => exact (unusedSlotsClear_iff w).mpr hslots
  | _ _ => rfl

@[simp] theorem palOf_val (w : Nat) : (palOf w).val = slice w 26 24 := Nat.mod_eq_of_lt (slice_lt w 26 24)

@[simp] theorem bit_prioOf (w : Nat) : bit (prioOf w) = slice w 27 27 := bit_slice w 27

@[simp] theorem twos16_sext16_slice (w : Nat) : twos16 (sext16 (slice w 51 36)) = slice w 51 36 :=
  twos16_sext16 (slice_lt w 51 36)

/-- A word is the sum of its fields: the opcode, the operands of its format, and the zeros of the reserved fields. -/
theorem Reads.opcode_add_operandBits {w : Nat} {i : Instr} (hw : w < 2 ^ 64) (h : Reads w i) : i.opcode + i.operandBits = w := by
  cases h with
  | enqb h hslots =>
    obtain ⟨hop, hlow, htop⟩ := h
    simp only [Instr.opcode, Instr.operandBits, slotOf_toNat, Fin.ofNat]
    simp only [slice] at *
    omega
  | _ h =>
    obtain ⟨hop, hlow, htop⟩ := h
    simp only [Instr.opcode, Instr.operandBits, packLanes_lanesOf, palOf_val, bit_prioOf, twos16_sext16_slice,
      slotOf_toNat, Fin.ofNat, BitVec.toNat_ofNat]
    simp only [slice] at *
    omega

theorem encode_of_decode {w : Cmd} {i : Instr} (h : decode w = .ok i) : encode i = w := by
  have hr := decode_ok_iff.mp h
  exact BitVec.eq_of_toNat_eq ((encode_toNat hr.wellFormed).trans (hr.opcode_add_operandBits w.isLt))

/-! ### The table (R62) -/

/-- The row a word selects, named after the command the word carries. -/
theorem Reads.format {w : Nat} {i : Instr} (h : Reads w i) :
    ∃ f ∈ formats, Selects w f.op f.top ∧ f.mnemonic = mnemonic i ∧ (f.mnemonic = "ENQB" → UnusedSlotsZero w) := by
  cases h with
  | enqb h hslots => exact ⟨⟨"ENQB", 0xC, 58⟩, by decide, h, rfl, fun _ => hslots⟩
  | _ h => exact ⟨⟨_, _, _⟩, by decide, h, rfl, by simp⟩

/-- A word that selects a row carries that row's command, given that ENQB's unused slots are 0. -/
theorem Reads.of_format {w : Nat} {f : Format} (hf : f ∈ formats) (h : Selects w f.op f.top)
    (hslots : f.mnemonic = "ENQB" → UnusedSlotsZero w) : ∃ i, Reads w i := by
  simp only [formats, List.mem_cons, List.not_mem_nil, or_false] at hf
  obtain rfl | rfl | rfl | rfl | rfl | rfl | rfl | rfl | rfl | rfl | rfl | rfl | rfl := hf
  · exact ⟨_, .len h⟩
  · exact ⟨_, .row h⟩
  · exact ⟨_, .ovl h⟩
  · exact ⟨_, .pop h⟩
  · exact ⟨_, .drop h⟩
  · exact ⟨_, .clr h⟩
  · exact ⟨_, .cnt h⟩
  · exact ⟨_, .get h⟩
  · exact ⟨_, .set h⟩
  · exact ⟨_, .enq h⟩
  · exact ⟨_, .enqb h (hslots rfl)⟩
  · exact ⟨_, .deq h⟩
  · exact ⟨_, .rclr h⟩

/-- The rows of R62 are the rows of the formats. -/
theorem exists_row_iff {p : OpcodeRow → Prop} : (∃ r ∈ opcodeRows, p r) ↔ ∃ f ∈ formats, p f.row := by
  simp [opcodeRows_eq]

theorem decodes_iff {w : Cmd} :
    (∃ i, decode w = .ok i) ↔
      ∃ f ∈ formats, Selects w.toNat f.op f.top ∧ (f.mnemonic = "ENQB" → UnusedSlotsZero w.toNat) := by
  simp only [decode_ok_iff]
  constructor
  · rintro ⟨i, h⟩
    obtain ⟨f, hf, hsel, -, hslots⟩ := h.format
    exact ⟨f, hf, hsel, hslots⟩
  · rintro ⟨f, hf, hsel, hslots⟩
    exact Reads.of_format hf hsel hslots

theorem refuses_iff {w : Cmd} : (∃ e, decode w = .error e) ↔ ¬∃ i, decode w = .ok i := by
  cases decode w <;> simp

/-- The refused words, by the case of R63: no format has the opcode, or the one that has it is broken. -/
theorem refuses_iff_cases {w : Cmd} :
    (∃ e, decode w = .error e) ↔
      (∀ f ∈ formats, f.op ≠ slice w.toNat 3 0)
      ∨ (∃ f ∈ formats, f.op = slice w.toNat 3 0 ∧ ¬(slice w.toNat 7 4 = 0 ∧ slice w.toNat 63 f.top = 0))
      ∨ (slice w.toNat 3 0 = 0xC ∧ ¬UnusedSlotsZero w.toNat) := by
  rw [refuses_iff, decodes_iff]
  constructor
  · intro h
    by_cases hop : ∀ f ∈ formats, f.op ≠ slice w.toNat 3 0
    · exact .inl hop
    · obtain ⟨f, hf, hop⟩ : ∃ f ∈ formats, f.op = slice w.toNat 3 0 := by simpa using hop
      by_cases hclear : slice w.toNat 7 4 = 0 ∧ slice w.toNat 63 f.top = 0
      · obtain ⟨hname, hslots⟩ : f.mnemonic = "ENQB" ∧ ¬UnusedSlotsZero w.toNat := by
          by_contra hno
          exact h ⟨f, hf, ⟨hop.symm, hclear⟩, fun hname => by_contra fun hslots => hno ⟨hname, hslots⟩⟩
        exact .inr (.inr ⟨hop.symm.trans ((format_enqb_iff f hf).mp hname), hslots⟩)
      · exact .inr (.inl ⟨f, hf, hop, hclear⟩)
  · rintro hcase ⟨f, hf, ⟨hop, hclear⟩, hslots⟩
    obtain hnone | ⟨g, hg, hgop, hbroken⟩ | ⟨hbatch, hbroken⟩ := hcase
    · exact hnone f hf hop.symm
    · exact hbroken (format_eq_of_op f hf g hg (hop.symm.trans hgop.symm) ▸ hclear)
    · exact hbroken (hslots ((format_enqb_iff f hf).mpr (hop.symm.trans hbatch)))

end Sys2Proof

namespace Sys2Proof.Machine

theorem present_of_error {w : Cmd} {e : DecodeError} (h : decode w = .error e) (s : State) :
    present w s = illegalCommand w s := by
  rw [present, h]

end Sys2Proof.Machine
end


section
/-! PROOFS. Sample words: their fields, and that encoding and decoding samples are inverse (R60, R61). -/

namespace Sys2Proof.Machine

open Sys2Proof.Bits

/-- The fields of a tag: its KIND is not 11, and its OAM is 0 but for a sprite (R61). -/
theorem kindOam_bounds (t : Tag) :
    (kindOam t).1 < 3 ∧ (kindOam t).2 < 256 ∧ ((kindOam t).1 = 2 ∨ (kindOam t).2 = 0) := by
  cases t <;> simp [kindOam]

/-- A sample's fields fit in its word, each below the next. -/
theorem encodeSample_toNat (x : Sample) :
    (encodeSample x).toNat
      = x.color.val + x.pal.val * 2 ^ 2 + (kindOam x.tag).1 * 2 ^ 5 + (kindOam x.tag).2 * 2 ^ 7 := by
  obtain ⟨hkind, hoam, -⟩ := kindOam_bounds x.tag
  rw [encodeSample, BitVec.toNat_ofNat]
  omega

/-- The layout of a sample word (R60). -/
theorem encodeSample_fields (x : Sample) :
    slice (encodeSample x).toNat 1 0 = x.color.val ∧ slice (encodeSample x).toNat 4 2 = x.pal.val
      ∧ slice (encodeSample x).toNat 6 5 = (kindOam x.tag).1 ∧ slice (encodeSample x).toNat 14 7 = (kindOam x.tag).2
      ∧ slice (encodeSample x).toNat 15 15 = 0 := by
  obtain ⟨hkind, hoam, -⟩ := kindOam_bounds x.tag
  simp only [encodeSample_toNat, slice]
  omega

theorem sampleWellFormed_iff (s : SampleWord) :
    sampleWellFormed s = true ↔ slice s.toNat 6 5 ≠ 3 ∧ slice s.toNat 15 15 = 0
      ∧ (slice s.toNat 6 5 = 2 ∨ slice s.toNat 14 7 = 0) := by
  simp [sampleWellFormed, and_assoc]

/-- The tag read from a word with a tag's fields is that tag (R61). -/
theorem tagOf_eq {s : SampleWord} {t : Tag} (hkind : slice s.toNat 6 5 = (kindOam t).1)
    (hoam : slice s.toNat 14 7 = (kindOam t).2) : tagOf s = t := by
  rw [tagOf, hkind, hoam]
  cases t with
  | ordBg => rfl
  | bgPrio => rfl
  | sprite o => simp [kindOam]

/-- The tag of a well-formed word has the word's fields (R60, R61). -/
theorem kindOam_tagOf {s : SampleWord} (h : sampleWellFormed s = true) :
    kindOam (tagOf s) = (slice s.toNat 6 5, slice s.toNat 14 7) := by
  obtain ⟨hkind, -, hoam⟩ := (sampleWellFormed_iff s).mp h
  have hlt : slice s.toNat 6 5 < 4 := slice_lt s.toNat 6 5
  have hrank : slice s.toNat 14 7 < 256 := slice_lt s.toNat 14 7
  obtain h0 | h1 | h2 : slice s.toNat 6 5 = 0 ∨ slice s.toNat 6 5 = 1 ∨ slice s.toNat 6 5 = 2 := by omega
  · simpa [tagOf, kindOam, h0] using (hoam.resolve_left (by omega)).symm
  · simpa [tagOf, kindOam, h1] using (hoam.resolve_left (by omega)).symm
  · simp [tagOf, kindOam, h2, Nat.mod_eq_of_lt hrank]

/-- A word decodes to a sample exactly when it is that sample's word (R61). -/
theorem decodeSample_eq_some_iff {s : SampleWord} {x : Sample} : decodeSample s = some x ↔ encodeSample x = s := by
  constructor
  · intro h
    have hwf : sampleWellFormed s = true := by rw [← decodeSample_some_iff, h, Option.isSome_some]
    have htag := kindOam_tagOf hwf
    obtain ⟨-, htop, -⟩ := (sampleWellFormed_iff s).mp hwf
    rw [decodeSample, if_pos hwf] at h
    cases h
    refine BitVec.eq_of_toNat_eq ?_
    simp only [encodeSample_toNat, htag, Fin.ofNat]
    simp only [slice] at *
    omega
  · rintro rfl
    obtain ⟨hcolor, hpal, hkind, hoam, htop⟩ := encodeSample_fields x
    obtain ⟨hkind3, -, hrank⟩ := kindOam_bounds x.tag
    have hwf : sampleWellFormed (encodeSample x) = true :=
      (sampleWellFormed_iff _).mpr ⟨by omega, htop, by rwa [hkind, hoam]⟩
    rw [decodeSample, if_pos hwf, hcolor, hpal, tagOf_eq hkind hoam, Fin.ofNat_val_eq_self, Fin.ofNat_val_eq_self]

end Sys2Proof.Machine
end

section
/-! PROOFS. The assembler reads back each part of a line that the printer writes (R66). -/

namespace Sys2Proof.Asm

open Sys2Proof.Machine

/-! ### Operands -/

theorem index?_natCast {n v : Nat} (h : v < n) : index? n (v : Int) = some ⟨v, h⟩ :=
  (dif_pos ⟨Int.natCast_nonneg v, Int.ofNat_lt.mpr h⟩).trans (by simp)

@[simp] theorem index?_val {n : Nat} (v : Fin n) : index? n (v.val : Int) = some v := index?_natCast v.isLt

/-- A run of colors ends at the comma in front of the next operand. -/
@[simp] theorem takeColors_colorTokens (colors : List ColorIdx) (ts : List Token) :
    takeColors (colorTokens colors ++ .comma :: ts) = some (colors, .comma :: ts) := by
  induction colors with
  | nil => rfl
  | cons c rest ih =>
    rw [colorTokens] at ih ⊢
    simp [takeColors, ih]

@[simp] theorem takePrio_prioTokens (prio : Bool) : takePrio (prioTokens prio) = some prio := by
  cases prio <;> rfl

@[simp] theorem takeSample_sampleTokens (x : Sample) (ts : List Token) :
    takeSample (sampleTokens x ++ ts) = some (x, ts) := by
  obtain ⟨color, pal, tag⟩ := x
  cases tag <;> simp [sampleTokens, takeSample, takeTag]

@[simp] theorem takeSample_sampleTokens_end (x : Sample) : takeSample (sampleTokens x) = some (x, []) := by
  simpa using takeSample_sampleTokens x []

@[simp] theorem lastSample_sampleTokens (x : Sample) : lastSample (sampleTokens x) = some x := by
  simp [lastSample]

@[simp] theorem sampleTokens_ne_nil (x : Sample) : sampleTokens x ≠ [] := by
  simp [sampleTokens]

/-- A word with tokens is the word of the sample they spell. -/
theorem wordTokens_eq_some {smp : SampleWord} {ts : List Token} (h : wordTokens smp = some ts) :
    ∃ x, smp = encodeSample x ∧ ts = sampleTokens x := by
  obtain ⟨x, hx, rfl⟩ := Option.map_eq_some_iff.mp h
  exact ⟨x, (decodeSample_eq_some_iff.mp hx).symm, rfl⟩

theorem batchTokens_eq_some {ws : List SampleWord} {tss : List (List Token)} (h : batchTokens ws = some tss) :
    ∃ xs : List Sample, ws = xs.map encodeSample ∧ tss = xs.map sampleTokens := by
  induction ws generalizing tss with
  | nil => exact ⟨[], rfl, by simpa [batchTokens] using h.symm⟩
  | cons w rest ih =>
    unfold batchTokens at h
    split at h
    next ts tss' hts htss =>
      obtain ⟨x, rfl, rfl⟩ := wordTokens_eq_some hts
      obtain ⟨xs, rfl, rfl⟩ := ih htss
      exact ⟨x :: xs, rfl, by simpa using h.symm⟩
    · cases h

theorem padRun_of_length {colors : List ColorIdx} (h : colors.length = 8) : padRun colors = colors := by
  simp [padRun, h]

/-! ### Lines -/

theorem parse_row {colors : List ColorIdx} {pal : PalIdx} {prio : Bool} {ts : List Token}
    (hwf : (Instr.row colors pal prio).wellFormed = true) (h : print (.row colors pal prio) = some ts) :
    parse ts = some (.row colors pal prio) := by
  have hlen : colors.length = 8 := beq_iff_eq.mp hwf
  cases h
  simp [parse, parseOperands, parseRow, takePal, hlen]

theorem parse_ovl {colors : List ColorIdx} {pal : PalIdx} {prio : Bool} {oam : OamIdx} {ofs : Int} {ts : List Token}
    (hwf : (Instr.ovl colors pal prio oam ofs).wellFormed = true) (h : print (.ovl colors pal prio oam ofs) = some ts) :
    parse ts = some (.ovl colors pal prio oam ofs) := by
  obtain ⟨hfit, hofs⟩ := Bool.and_eq_true_iff.mp hwf
  have hlen : colors.length = 8 := beq_iff_eq.mp hfit
  cases h
  simp [parse, parseOperands, parseOvl, takeOfs, takePal, takeOam, hlen, hofs, padRun_of_length hlen]

theorem parse_get {idx : Nat} {ts : List Token} (hwf : (Instr.get idx).wellFormed = true)
    (h : print (.get idx) = some ts) : parse ts = some (.get idx) := by
  have hidx : idx < 65536 := by simpa [Instr.wellFormed, Instr.idxFits] using hwf
  cases h
  simp [parse, parseOperands, index?_natCast hidx]

theorem parse_set {idx : Nat} {smp : SampleWord} {ts : List Token} (hwf : (Instr.set idx smp).wellFormed = true)
    (h : print (.set idx smp) = some ts) : parse ts = some (.set idx smp) := by
  have hidx : idx < 65536 := by simpa [Instr.wellFormed, Instr.idxFits] using hwf
  obtain ⟨ts', hts, rfl⟩ := Option.map_eq_some_iff.mp h
  obtain ⟨x, rfl, rfl⟩ := wordTokens_eq_some hts
  change parseSet (.num idx :: .comma :: sampleTokens x) = _
  rw [parseSet, index?_natCast hidx, lastSample_sampleTokens]

theorem parse_enq {smp : SampleWord} {ts : List Token} (h : print (.enq smp) = some ts) :
    parse ts = some (.enq smp) := by
  obtain ⟨ts', hts, rfl⟩ := Option.map_eq_some_iff.mp h
  obtain ⟨x, rfl, rfl⟩ := wordTokens_eq_some hts
  simp [parse, parseOperands]

theorem parse_enqb {n : Fin 4} {smp0 smp1 smp2 : SampleWord} {ts : List Token}
    (hwf : (Instr.enqb n smp0 smp1 smp2).wellFormed = true) (h : print (.enqb n smp0 smp1 smp2) = some ts) :
    parse ts = some (.enqb n smp0 smp1 smp2) := by
  obtain ⟨tss, htss, rfl⟩ := Option.map_eq_some_iff.mp h
  obtain ⟨xs, hxs, rfl⟩ := batchTokens_eq_some htss
  change Instr.unusedSlotsClear n smp0 smp1 smp2 = true at hwf
  have hlen : xs.length = n.val := by rw [← batchWords_length n smp0 smp1 smp2, hxs, List.length_map]
  match n, xs with
  | 0, [] =>
    obtain ⟨rfl, rfl, rfl⟩ : smp0 = 0 ∧ smp1 = 0 ∧ smp2 = 0 := by simpa [Instr.unusedSlotsClear] using hwf
    rfl
  | 1, [x] =>
    obtain ⟨rfl, rfl⟩ : smp1 = 0 ∧ smp2 = 0 := by simpa [Instr.unusedSlotsClear] using hwf
    obtain rfl : smp0 = encodeSample x := by simpa [batchWords] using hxs
    simp [parse, parseOperands, parseEnqb, commaSeparated]
  | 2, [x, y] =>
    obtain rfl : smp2 = 0 := by simpa [Instr.unusedSlotsClear] using hwf
    obtain ⟨rfl, rfl⟩ : smp0 = encodeSample x ∧ smp1 = encodeSample y := by simpa [batchWords] using hxs
    simp [parse, parseOperands, parseEnqb, commaSeparated]
  | 3, [x, y, z] =>
    obtain ⟨rfl, rfl, rfl⟩ : smp0 = encodeSample x ∧ smp1 = encodeSample y ∧ smp2 = encodeSample z := by
      simpa [batchWords] using hxs
    simp [parse, parseOperands, parseEnqb, commaSeparated]

/-- The parser reads back every line the printer writes (R66). -/
theorem parse_print {i : Instr} {ts : List Token} (hwf : i.wellFormed = true) (h : print i = some ts) :
    parse ts = some i := by
  cases i with
  | row colors pal prio => exact parse_row hwf h
  | ovl colors pal prio oam ofs => exact parse_ovl hwf h
  | get idx => exact parse_get hwf h
  | set idx smp => exact parse_set hwf h
  | enq smp => exact parse_enq h
  | enqb n smp0 smp1 smp2 => exact parse_enqb hwf h
  | _ => cases h; rfl

end Sys2Proof.Asm
end

section
/-! PROOFS. Overlay runs: what a run that raises nothing leaves at each position, and runs cut into groups of eight
(R67, R81, R82). -/

namespace Sys2Proof.Machine

open Sys2Proof.Bits Sys2Proof.Safety Sys2Proof.Claims

/-! ### What a run leaves at a position (R81) -/

/-- The color that `lane` shows in a run whose first color is at lane `j`; 0, which is transparent, where the run has
no such lane or does not examine it. -/
def shownColor (start : Int) (j : Nat) (colors : List ColorIdx) (lane : Int) : ColorIdx :=
  if (j : Int) ≤ lane ∧ start ≤ lane then colors.getD (lane - j).toNat 0 else 0

section
variable {start : Int} {bgEn : Bool} {pal : PalIdx} {prio : Bool} {oam : OamIdx} {ofs : Int} {j : Nat} {c : ColorIdx}
  {colors : List ColorIdx} {q q' : List Sample}

theorem shownColor_before {lane : Int} (h : lane < j) : shownColor start j colors lane = 0 :=
  if_neg (by omega)

theorem shownColor_first (h : ¬((j : Int) < start ∨ c = 0)) : shownColor start j (c :: colors) j = c := by
  simp [shownColor, not_lt.mp (not_or.mp h).1]

/-- The lanes behind the first are those of the rest of the run. -/
theorem shownColor_rest {lane : Int} (h : lane ≠ j) :
    shownColor start j (c :: colors) lane = shownColor start (j + 1) colors lane := by
  by_cases hlt : lane < j
  · rw [shownColor_before hlt, shownColor_before (by omega)]
  · have hlane : (lane - j).toNat = (lane - (j + 1 : Nat)).toNat + 1 := by omega
    have hcond : ((j : Int) ≤ lane ∧ start ≤ lane) ↔ ((j + 1 : Nat) : Int) ≤ lane ∧ start ≤ lane := by omega
    simp only [shownColor, hcond, hlane, List.getD_cons_succ]

/-- A lane that is skipped shows nothing, so the run shows what the rest of it shows. -/
theorem shownColor_skip (h : (j : Int) < start ∨ c = 0) (lane : Int) :
    shownColor start j (c :: colors) lane = shownColor start (j + 1) colors lane := by
  by_cases hlane : lane = j
  · subst hlane
    have hrest : shownColor start (j + 1) colors j = 0 := shownColor_before (by omega)
    obtain hstart | rfl := h
    · rw [hrest, shownColor, if_neg (by omega)]
    · simp [shownColor]
  · exact shownColor_rest hlane

/-- A run whose shown lanes all have a target raises nothing (R81, R107). -/
theorem overlay_of_targets (h : ∀ lane, shownColor start j colors lane ≠ 0 → 0 ≤ lane - ofs ∧ lane - ofs < q.length) :
    ∃ q', overlay start bgEn pal prio oam ofs j colors q = .ok q' := by
  induction colors generalizing j q with
  | nil => exact ⟨q, rfl⟩
  | cons c rest ih =>
    by_cases hskip : (j : Int) < start ∨ c = 0
    · rw [overlay_skip hskip]
      exact ih fun lane hlane => h lane (by rwa [shownColor_skip hskip])
    · have htarget := h j (by rw [shownColor_first hskip]; exact (not_or.mp hskip).2)
      cases ht : sampleAt q (j - ofs) with
      | none => exact absurd htarget (sampleAt_none_iff.mp ht)
      | some old =>
        rw [overlay_paint hskip ht]
        refine ih fun lane hlane => ?_
        have hne : lane ≠ j := fun he => hlane (shownColor_before (by omega))
        rw [List.length_set]
        exact h lane (by rwa [shownColor_rest hne])

/-- A run paints each position with the color its lane shows, since no two lanes share a target (R81, R82). -/
theorem getElem?_overlay (h : overlay start bgEn pal prio oam ofs j colors q = .ok q') {k : Nat} {old : Sample}
    (hk : q[k]? = some old) :
    q'[k]? = some (if shownColor start j colors (k + ofs) = 0 then old
      else painted old bgEn (shownColor start j colors (k + ofs)) pal prio oam) := by
  induction colors generalizing j q old with
  | nil => cases h; simpa [shownColor] using hk
  | cons c rest ih =>
    by_cases hskip : (j : Int) < start ∨ c = 0
    · rw [shownColor_skip hskip]
      exact ih (overlay_skip hskip ▸ h) hk
    · cases ht : sampleAt q (j - ofs) with
      | none => simp [overlay_fault hskip ht] at h
      | some first =>
        rw [overlay_paint hskip ht] at h
        obtain ⟨hnonneg, hfirst⟩ := sampleAt_some_iff.mp ht
        by_cases hlane : (k : Int) + ofs = j
        · have hpos : ((j : Int) - ofs).toNat = k := by omega
          rw [hpos] at h hfirst
          obtain rfl : first = old := Option.some.inj (hfirst.symm.trans hk)
          have hhere := ih h (List.getElem?_set_self (List.getElem?_eq_some_iff.mp hk).1)
          rw [hlane, shownColor_before (by omega), if_pos rfl] at hhere
          rw [hhere, hlane, shownColor_first hskip, if_neg (not_or.mp hskip).2]
        · rw [shownColor_rest hlane]
          exact ih h ((List.getElem?_set_ne (by omega)).trans hk)

end

/-- A lane of a whole run shows its color where it is examined (R81). -/
theorem shownColor_zero (start : Int) (colors : List ColorIdx) (lane : Int) :
    shownColor start 0 colors lane = if 0 ≤ lane ∧ start ≤ lane then colors.getD lane.toNat 0 else 0 := by
  simp [shownColor]

/-- A lane that shows a color is a lane of the run (R81). -/
theorem shows_of_shownColor {s : State} {colors : List ColorIdx} {ofs lane : Int}
    (h : shownColor (firstLane s.cfg.ovlStart ofs) 0 colors lane ≠ 0) :
    ∃ j : Nat, lane = j ∧ j < colors.length ∧ Shows s colors ofs j := by
  rw [shownColor_zero] at h
  split at h
  next hlane =>
    obtain ⟨j, rfl⟩ := Int.eq_ofNat_of_zero_le hlane.1
    refine ⟨j, rfl, ?_, hlane.2, h⟩
    by_contra hlen
    exact h (List.getD_eq_default _ _ (by simpa using hlen))
  · exact absurd rfl h

/-- An overlay that raises nothing leaves `Q` as R81 describes it, position by position. -/
theorem eq_overlaid_of_overlay {s : State} {colors : List ColorIdx} {pal : PalIdx} {prio : Bool} {oam : OamIdx}
    {ofs : Int} {q' : List Sample}
    (h : overlay (firstLane s.cfg.ovlStart ofs) s.inputs.bgEn pal prio oam ofs 0 colors s.q = .ok q') :
    q' = overlaid s colors pal prio oam ofs := by
  refine List.ext_getElem? fun k => ?_
  rw [overlaid, List.getElem?_mapIdx]
  cases hk : s.q[k]? with
  | none => simpa [overlay_length h] using hk
  | some old =>
    rw [getElem?_overlay h hk, shownColor_zero, painted, Option.map_some]
    generalize colors.getD ((k : Int) + ofs).toNat 0 = c
    by_cases hlane : 0 ≤ (k : Int) + ofs ∧ firstLane s.cfg.ovlStart ofs ≤ (k : Int) + ofs
    · by_cases hc : c = 0 <;> simp [hlane, hc]
    · rw [if_neg hlane, if_pos rfl, if_neg fun h => hlane ⟨h.1, h.2.1⟩]

theorem overlay_eq_overlaid {s : State} {colors : List ColorIdx} {pal : PalIdx} {prio : Bool} {oam : OamIdx}
    {ofs : Int} (h : ∀ j < colors.length, Shows s colors ofs j → Targets s ofs j) :
    overlay (firstLane s.cfg.ovlStart ofs) s.inputs.bgEn pal prio oam ofs 0 colors s.q
      = .ok (overlaid s colors pal prio oam ofs) := by
  obtain ⟨q', hq'⟩ := overlay_of_targets (bgEn := s.inputs.bgEn) (pal := pal) (prio := prio) (oam := oam)
    (ofs := ofs) (q := s.q) fun lane hlane => by
      obtain ⟨j, rfl, hj, hshows⟩ := shows_of_shownColor hlane
      exact h j hj hshows
  rw [hq', eq_overlaid_of_overlay hq']

/-! ### Runs cut into groups (R67) -/

section
variable {start : Int} {bgEn : Bool} {pal : PalIdx} {prio : Bool} {oam : OamIdx} {ofs : Int} {j : Nat}
  {xs ys : List ColorIdx} {q q' : List Sample}

/-- A run in two parts: the second goes on from the lane and the queue the first ends at. -/
theorem overlay_append :
    overlay start bgEn pal prio oam ofs j (xs ++ ys) q = .ok q' ↔
      ∃ q₁, overlay start bgEn pal prio oam ofs j xs q = .ok q₁
        ∧ overlay start bgEn pal prio oam ofs (j + xs.length) ys q₁ = .ok q' := by
  induction xs generalizing j q with
  | nil => simp [overlay]
  | cons c rest ih =>
    rw [List.cons_append, List.length_cons, show j + (rest.length + 1) = j + 1 + rest.length by omega]
    by_cases hskip : (j : Int) < start ∨ c = 0
    · simp only [overlay_skip hskip, ih]
    · cases ht : sampleAt q (j - ofs) with
      | none => simp [overlay_fault hskip ht]
      | some old => simp only [overlay_paint hskip ht, ih]

/-- The padding of a run shows nothing (R67). -/
theorem overlay_padRun :
    overlay start bgEn pal prio oam ofs j (Asm.padRun xs) q = .ok q' ↔
      overlay start bgEn pal prio oam ofs j xs q = .ok q' := by
  rw [Asm.padRun, overlay_append]
  simp [overlay_transparent]

/-- Lanes counted from `n` on target what they did under an offset that is `n` less (R67, D16). -/
theorem overlay_shift {n : Nat} {start' : Int} (h : ∀ i : Nat, ((i + n : Nat) : Int) < start ↔ (i : Int) < start') :
    overlay start bgEn pal prio oam ofs (j + n) xs q = .ok q' ↔
      overlay start' bgEn pal prio oam (ofs - n) j xs q = .ok q' := by
  induction xs generalizing j q with
  | nil => rfl
  | cons c rest ih =>
    have hnext : j + n + 1 = j + 1 + n := by omega
    have htarget : ((j + n : Nat) : Int) - ofs = j - (ofs - n) := by omega
    by_cases hskip : (j : Int) < start' ∨ c = 0
    · rw [overlay_skip hskip, overlay_skip (by rwa [h j]), hnext, ih]
    · have hskip' : ¬(((j + n : Nat) : Int) < start ∨ c = 0) := by rwa [h j]
      cases ht : sampleAt q (j - (ofs - n)) with
      | none => simp [overlay_fault hskip ht, overlay_fault hskip' (htarget ▸ ht)]
      | some old => rw [overlay_paint hskip ht, overlay_paint hskip' (htarget ▸ ht), hnext, ih, htarget]

end

/-- The first lane examined is the same lane of the run, however the run is cut (R81, D11). -/
theorem firstLane_shift (p : OvlStart) (ofs : Int) (n i : Nat) :
    ((i + n : Nat) : Int) < firstLane p ofs ↔ (i : Int) < firstLane p (ofs - n) := by
  cases p <;> simp only [firstLane] <;> omega

end Sys2Proof.Machine

namespace Sys2Proof.Asm

open Sys2Proof.Machine Sys2Proof.Safety Sys2Proof.Claims

@[simp] theorem splitRun_nil (pal : PalIdx) (prio : Bool) (oam : OamIdx) (ofs : Int) :
    splitRun [] pal prio oam ofs = [] := rfl

/-- A run is its first group, then the rest of it split at an offset that is eight less (R67). -/
theorem splitRun_of_ne_nil {colors : List ColorIdx} (h : colors ≠ []) (pal : PalIdx) (prio : Bool) (oam : OamIdx)
    (ofs : Int) :
    splitRun colors pal prio oam ofs
      = .ovl (padRun (colors.take 8)) pal prio oam ofs :: splitRun (colors.drop 8) pal prio oam (ofs - 8) := by
  have hpos := List.length_pos_of_ne_nil h
  have hgroups : (colors.length + 7) / 8 = ((colors.drop 8).length + 7) / 8 + 1 := by
    rw [List.length_drop]
    omega
  rw [splitRun, hgroups, List.range_succ_eq_map, List.map_cons, List.map_map, splitRun]
  refine congrArg₂ _ (by simp) (List.map_congr_left fun m _ => ?_)
  have hofs : ofs - 8 * ((m + 1 : Nat) : Int) = ofs - 8 - 8 * m := by omega
  simp only [Function.comp_apply, List.drop_drop, hofs, show 8 + 8 * m = 8 * (m + 1) by omega]

/-- Where the whole run raises nothing, its groups in turn leave the queue it would leave (R67). -/
theorem runCommands_splitRun {colors : List ColorIdx} {pal : PalIdx} {prio : Bool} {oam : OamIdx} {ofs : Int}
    {s : State} {q' : List Sample} (hs : InService s)
    (h : overlay (firstLane s.cfg.ovlStart ofs) s.inputs.bgEn pal prio oam ofs 0 colors s.q = .ok q') :
    runCommands (splitRun colors pal prio oam ofs) s
      = .next (if colors = [] then s else (s.withQueue q').respond rstatOk 0) := by
  induction hn : colors.length using Nat.strong_induction_on generalizing colors ofs s with
  | _ n ih =>
  by_cases hnil : colors = []
  · subst hnil
    rfl
  · have hcut : overlay (firstLane s.cfg.ovlStart ofs) s.inputs.bgEn pal prio oam ofs 0
        (colors.take 8 ++ colors.drop 8) s.q = .ok q' := by
      rwa [List.take_append_drop]
    obtain ⟨q₁, hfirst, hrest⟩ := overlay_append.mp hcut
    have hexec := Completes.exec hs (.ovl (overlay_padRun.mpr hfirst))
    rw [splitRun_of_ne_nil hnil, runCommands, hexec, if_neg hnil]
    by_cases hlast : colors.drop 8 = []
    · rw [hlast] at hrest ⊢
      cases hrest
      rfl
    · have hlen : 8 < colors.length := by simpa using hlast
      rw [List.length_take_of_le (by omega)] at hrest
      have hgroup := (overlay_shift (firstLane_shift s.cfg.ovlStart ofs 8)).mp hrest
      have hrun := ih (colors.drop 8).length (by rw [List.length_drop]; omega)
        (s := (s.withQueue q₁).respond rstatOk 0) hs hgroup rfl
      exact hrun.trans (by rw [if_neg hlast]; rfl)

end Sys2Proof.Asm
end

section
/-! PROOFS. The statements about the encoding (`30_encoding.md`). -/

namespace Sys2Proof.Proofs.Encoding

open Sys2Proof.Bits Sys2Proof.Machine Sys2Proof.Safety Sys2Proof.Claims

/-- Settles O6. -/
theorem decodingAnEncodedCommandGivesItBack : Obligations.DecodingAnEncodedCommandGivesItBack :=
  fun _ h => decode_encode h

/-- Settles O7. -/
theorem encodingADecodedWordGivesItBack : Obligations.EncodingADecodedWordGivesItBack :=
  fun _ _ h => ⟨(decode_ok_iff.mp h).wellFormed, encode_of_decode h⟩

/-- Settles O8. -/
theorem decodingFollowsTheMatchAndMaskTable : Obligations.DecodingFollowsTheMatchAndMaskTable := by
  refine ⟨fun w => ?_, fun w i h => ?_, fun w r₁ hr₁ r₂ hr₂ h₁ h₂ => ?_⟩
  · rw [decodes_iff, exists_row_iff]
    exact exists_congr fun f => and_congr_right fun hf => and_congr_left' (and_mask_eq_pattern_iff hf w).symm
  · obtain ⟨f, hf, hsel, hname, -⟩ := (decode_ok_iff.mp h).format
    exact exists_row_iff.mpr ⟨f, hf, (and_mask_eq_pattern_iff hf w).mpr hsel, hname⟩
  · rw [opcodeRows_eq] at hr₁ hr₂
    obtain ⟨f₁, hf₁, rfl⟩ := List.mem_map.mp hr₁
    obtain ⟨f₂, hf₂, rfl⟩ := List.mem_map.mp hr₂
    obtain ⟨hop₁, -⟩ := (and_mask_eq_pattern_iff hf₁ w).mp h₁
    obtain ⟨hop₂, -⟩ := (and_mask_eq_pattern_iff hf₂ w).mp h₂
    rw [format_eq_of_op f₁ hf₁ f₂ hf₂ (hop₁.symm.trans hop₂)]

/-- Settles O9. -/
theorem aWordIsIllegalExactlyInTheThreeCases : Obligations.AWordIsIllegalExactlyInTheThreeCases := by
  refine ⟨fun w => ?_, fun w e s h hs => ?_⟩
  · rw [refuses_iff_cases, exists_row_iff]
    refine or_congr (reserved_iff_no_format _ (slice_lt w.toNat 3 0)).symm (or_congr ?_ (and_congr_right' ?_))
    · refine exists_congr fun f => and_congr_right fun hf => ?_
      obtain ⟨hop, -⟩ := format_bounds f hf
      have hself : slice f.op 3 0 = f.op := by rw [slice_eq]; omega
      rw [Format.row_pattern_toNat hf, hself, Ne, and_reserved_eq_zero_iff hf]
    · simp [UnusedSlotsZero]
  · refine ⟨_, (present_of_error h s).trans (unlessHalted_running hs _), ?_, ?_⟩
    · exact recordFault_halted s _ .illegalCmd 0 (w.setWidth 32)
    · exact FStat.fcode_pack _ _ _

/-- Settles O10. -/
theorem operandlessCommandsDecodeFromTheirOpcode : Obligations.OperandlessCommandsDecodeFromTheirOpcode := by
  have hread {w : Cmd} {i : Instr} (h : decode w = whenClear [slice w.toNat 63 4] i) :
      decode w = if slice w.toNat 63 4 = 0 then .ok i else .error .reservedBits := by
    rw [h, whenClear]
    simp
  refine ⟨?_, ?_, ?_, ?_, ?_, ?_, ?_⟩ <;> exact fun w hop => hread (by simp only [decode, hop])

/-- Settles O11. -/
theorem wordsOfTheSpecDecodeAsTheSpecSays : Obligations.WordsOfTheSpecDecodeAsTheSpecSays :=
  ⟨rfl, rfl, rfl, rfl, rfl, rfl, rfl, rfl⟩

/-- Settles O12. -/
theorem sampleWordsCarryEverySample : Obligations.SampleWordsCarryEverySample := by
  refine ⟨fun x => ?_, fun x => decodeSample_eq_some_iff.mpr rfl, fun s x h => decodeSample_eq_some_iff.mp h,
    fun s => ?_⟩
  · obtain ⟨hcolor, hpal, hkind, hoam, htop⟩ := encodeSample_fields x
    refine ⟨hcolor, hpal, hkind.trans ?_, hoam.trans ?_, htop⟩ <;> cases x.tag <;> rfl
  · rw [← Option.isSome_iff_exists, decodeSample_some_iff, sampleWellFormed_iff]

/-- Settles O13. -/
theorem parsingAPrintedLineGivesTheCommandBack : Obligations.ParsingAPrintedLineGivesTheCommandBack :=
  fun _ _ hwf h => Asm.parse_print hwf h

/-- Settles O32: every word decodes, so ENQB appends with room. -/
theorem enqueueBatchAppendsItsSamplesInOrder : Obligations.EnqueueBatchAppendsItsSamplesInOrder := by
  refine ⟨fun s n smp0 smp1 smp2 xs hs hp hxs hroom => ?_, fun s smp0 smp1 smp2 hs hcap => ?_⟩
  · have hdec : decodeSamples 0 (batchWords n smp0 smp1 smp2) = .ok xs := decodeSamples_ok_iff.mpr hxs
    have hlen : xs.length = n.val := (decodeSamples_length hdec).trans (batchWords_length n smp0 smp1 smp2)
    obtain ⟨c, hc, hg⟩ := grow_of_room hp (hlen ▸ hroom)
    exact ⟨c, hlen ▸ hc, Completes.exec hs (.enqb hdec hg)⟩
  · refine (Completes.exec hs (.enqb (xs := []) rfl (grow_of_fits hcap))).trans ?_
    rw [List.append_nil]
    rfl

/-- Settles O41: the groups leave what the whole run leaves, and that is what R81 describes. -/
theorem aSplitOverlayRunActsLikeTheWholeRun : Obligations.ASplitOverlayRunActsLikeTheWholeRun := by
  intro s colors pal prio oam ofs hs htargets
  have hrun := Asm.runCommands_splitRun hs (overlay_eq_overlaid (pal := pal) (prio := prio) (oam := oam) htargets)
  by_cases hnil : colors = []
  · have hq : s.q = overlaid s colors pal prio oam ofs := eq_overlaid_of_overlay (by rw [hnil]; rfl)
    rw [if_pos hnil] at hrun
    exact ⟨s, hrun, by rw [← hq], fun hne => absurd hnil hne, fun _ => rfl⟩
  · rw [if_neg hnil] at hrun
    exact ⟨_, hrun, rfl, fun _ => rfl, fun he => absurd he hnil⟩

end Sys2Proof.Proofs.Encoding
end

section
/-! PROOFS. What reads of the queue answer: the count (R69, R77) and a sample that was set (R70, R71). -/

namespace Sys2Proof.Machine

open Sys2Proof.Safety Sys2Proof.Claims

/-- The count fits the 32 bits of RDATA, since MAX_CAP is at most 32768 (R7, R18). -/
theorem State.countData_toNat {s : State} (h : Inv s) : s.countData.toNat = s.q.length := by
  obtain ⟨-, -, hmax, -⟩ := legal_iff.mp h.params
  have hcount := h.countLeCap
  have hcap := h.capLeMax
  rw [State.countData, BitVec.toNat_ofNat]
  omega

/-- What SET wrote, GET reads back as the word that was set: a well-formed word is the encoding of its sample. -/
theorem exec_get_of_decodeSample {s : State} {idx : Nat} {smp : SampleWord} {x : Sample} (hs : InService s)
    (hsmp : decodeSample smp = some x) (hx : s.q[idx]? = some x) :
    exec (.get idx) s = .next (answered s (smp.setWidth 32)) := by
  rw [← decodeSample_eq_some_iff.mp hsmp]
  exact Completes.exec hs (.get hx)

end Sys2Proof.Machine
end

section
/-! PROOFS. The statements about the ring-buffer commands (`40_ring_buffer.md`). -/

namespace Sys2Proof.Proofs.RingBuffer

open Sys2Proof.Machine Sys2Proof.Safety Sys2Proof.Claims

/-- Settles O30: SET completes to a queue with `idx` replaced, where GET completes too. -/
theorem setReplacesOneSampleAndGetReadsItBack : Obligations.SetReplacesOneSampleAndGetReadsItBack := by
  intro s idx smp x hs hsmp hidx
  have hset : (s.q.set idx x)[idx]? = some x := List.getElem?_set_self hidx
  have ht : InService ((s.withQueue (s.q.set idx x)).respond rstatOk 0) := by
    rw [InService, State.respond_halted, State.withQueue_halted, hs]
  exact ⟨_, Completes.exec hs (.set hsmp hidx), rfl, List.length_set, hset,
    fun _ hk => List.getElem?_set_ne hk.symm, exec_get_of_decodeSample ht hsmp hset⟩

/-- Settles O31. -/
theorem enqueueAppendsOneSample : Obligations.EnqueueAppendsOneSample := by
  intro s smp x hs hp hsmp hroom
  obtain ⟨c, hc, hg⟩ := grow_of_room hp hroom
  exact ⟨c, hc, Completes.exec hs (.enq hsmp hg)⟩

/-- Settles O28. -/
theorem countAndLengthAnswerTheCount : Obligations.CountAndLengthAnswerTheCount :=
  fun _ hs => ⟨Completes.exec hs .cnt, Completes.exec hs .len, State.countData_toNat⟩

/-- Settles O29. -/
theorem getAnswersTheSampleAtTheOffset : Obligations.GetAnswersTheSampleAtTheOffset :=
  fun _ _ hidx hs => Completes.exec hs (.get (List.getElem?_eq_getElem hidx))

/-- Settles O33. -/
theorem dequeueRemovesAndAnswersTheFront : Obligations.DequeueRemovesAndAnswersTheFront :=
  fun _ _ _ hs hq => Completes.exec hs (.deq hq)

end Sys2Proof.Proofs.RingBuffer
end

section
/-! PROOFS. The priority mux by the tag of the sample it finds (R79, R80), and what a pixel leaves there (R82). -/

namespace Sys2Proof.Machine

open Sys2Proof.Claims

section
variable {c : ColorIdx} {p : PalIdx} {bgEn prio : Bool} {oam o : OamIdx}

/-- Rule 1: a disabled background loses to every sprite pixel. -/
theorem mux_background_disabled {old : Sample} (h : old.tag = .ordBg ∨ old.tag = .bgPrio) :
    mux old false prio oam = true := by
  obtain htag | htag := h <;> simp [mux, htag]

/-- Rule 2: a priority tile yields only where it is transparent. -/
@[simp] theorem mux_bgPrio_enabled : mux ⟨c, p, .bgPrio⟩ true prio oam = decide (c = 0) :=
  rfl

/-- Rules 3, 4 and 6: an ordinary tile yields to a sprite without the priority flag, and where it is transparent. -/
@[simp] theorem mux_ordBg_enabled : mux ⟨c, p, .ordBg⟩ true prio oam = (!prio || decide (c = 0)) := by
  cases prio <;> simp [mux]

/-- Rule 5: between sprites the rank alone decides. -/
@[simp] theorem mux_sprite : mux ⟨c, p, .sprite o⟩ bgEn prio oam = decide (oam < o) := by
  simp [mux]

end

section
variable {old : Sample} {bgEn prio : Bool} {color : ColorIdx} {pal : PalIdx} {oam : OamIdx}

theorem painted_of_mux (h : mux old bgEn prio oam = true) :
    painted old bgEn color pal prio oam = { color := color, pal := pal, tag := .sprite oam } :=
  if_pos h

theorem painted_of_not_mux (h : mux old bgEn prio oam = false) : painted old bgEn color pal prio oam = old :=
  if_neg (by simp [h])

end

end Sys2Proof.Machine
end

section
/-! PROOFS. The statements about the composer commands (`41_composer.md`). -/

namespace Sys2Proof.Proofs.Composer

open Sys2Proof.Machine Sys2Proof.Safety Sys2Proof.Claims

/-- Settles O38: no shown lane faults, so the overlay completes to the queue that R81 describes. -/
theorem overlayReplacesExactlyWhatTheMuxReplaces : Obligations.OverlayReplacesExactlyWhatTheMuxReplaces :=
  fun _ _ _ _ _ _ hs htargets => Completes.exec hs (.ovl (overlay_eq_overlaid htargets))

/-- Settles O37: the rows of R80 are the rules of R79 tag by tag. -/
theorem theMuxFollowsItsTruthTable : Obligations.TheMuxFollowsItsTruthTable :=
  fun _ _ _ _ _ _ =>
    ⟨mux_background_disabled (.inl rfl), mux_background_disabled (.inr rfl),
      fun hc => mux_bgPrio_enabled.trans (decide_eq_true hc), fun hc => mux_bgPrio_enabled.trans (decide_eq_false hc),
      mux_ordBg_enabled, fun hc => mux_ordBg_enabled.trans (decide_eq_true hc),
      fun hc => mux_ordBg_enabled.trans (decide_eq_false hc), fun hlt => mux_sprite.trans (decide_eq_true hlt),
      fun hle => mux_sprite.trans (decide_eq_false hle.not_gt)⟩

/-- Settles O42: the first pixel lands on the background, and the ranks alone decide whether the second replaces it. -/
theorem theLowerRankShowsInEitherOrder : Obligations.TheLowerRankShowsInEitherOrder := by
  intro old bgEn c₁ c₂ p₁ p₂ prio₁ prio₂ o₁ o₂ _ h₁ h₂ hrank
  rw [painted_of_mux h₁, painted_of_mux h₂]
  exact ⟨painted_of_not_mux (mux_sprite.trans (decide_eq_false hrank.not_gt)),
    painted_of_mux (mux_sprite.trans (decide_eq_true hrank))⟩

/-- Settles O43: `arbitrate` matches on the tag and on nothing else. -/
theorem theArbiterSelectsTheBankByTheTag : Obligations.TheArbiterSelectsTheBankByTheTag :=
  fun _ _ _ _ => ⟨rfl, rfl, rfl⟩

/-- Settles O45. -/
theorem dropDiscardsTheFrontSample : Obligations.DropDiscardsTheFrontSample :=
  fun _ _ _ hs hq => Completes.exec hs (.drop hq)

end Sys2Proof.Proofs.Composer
end

section
/-! PROOFS. Fault entry (R95): which command raises which fault, told apart by what the fault records (R90 to R93), and
that a command in service either completes or raises. -/

namespace Sys2Proof.Machine

open Sys2Proof.Bits Sys2Proof.Safety Sys2Proof.Claims

/-! ### The halted block (R96) -/

/-- Every command checks the halt before anything else. -/
theorem exec_halted {s : State} (h : s.halted = true) (i : Instr) : exec i s = .next (s.respond rstatHalted 0) := by
  cases i <;> exact unlessHalted_halted h _

theorem present_halted {s : State} (h : s.halted = true) (w : Cmd) : present w s = .next (s.respond rstatHalted 0) := by
  cases hw : decode w with
  | ok i => rw [present_of_decode hw, exec_halted h]
  | error e => exact (present_of_error hw s).trans (unlessHalted_halted h _)

theorem CommandEffect.of_halted {s t : State} (h : CommandEffect s t) (hs : s.halted = true) :
    t = s.respond rstatHalted 0 := by
  cases h with
  | refused _ ht => exact ht
  | faulted hrun _ _ _ _ _ _ _ => simp [hs] at hrun
  | done hrun _ _ _ _ _ _ _ => simp [hs] at hrun

/-! ### The fault entry (R95) -/

/-- The state that `raise` answers. -/
abbrev State.faulted (s : State) (op : Nat) (f : FaultCode) (lane : Nat) (info : Data) : State :=
  (s.recordFault op f lane info).respond (BitVec.ofNat 4 f.code) 0

theorem raise_eq (op : Nat) (f : FaultCode) (lane : Nat) (info : Data) (s : State) :
    raise op f lane info s = .next (s.faulted op f lane info) := rfl

/-- FSTAT as R95 lays it out: an opcode and a lane that fit their fields stand there whole. -/
theorem faulted_eq_faultEntry {op lane : Nat} (hop : op < 16) (hlane : lane < 8) (f : FaultCode) (info : Data)
    (s : State) : s.faulted op f lane info = faultEntry s op f.code lane info := by
  have hfstat : FStat.pack op lane f = BitVec.ofNat 16 (256 * op + 32 * lane + 2 * f.code + 1) := by
    rw [FStat.pack]
    congr 1
    omega
  simp only [State.faulted, State.respond, State.recordFault, faultEntry, hfstat]

/-- RSTAT of a faulting command is the code of its fault (R65, R87). -/
theorem rstat_toNat (f : FaultCode) : (BitVec.ofNat 4 f.code).toNat = f.code := by
  cases f <;> rfl

/-- The state on which the fault of the command is recorded: an overlay has forgotten the queue by then (R95, U2). -/
def State.atFault (s : State) : Instr → State
  | .ovl _ _ _ _ _ => s.forgetQueue
  | _ => s

section
variable (s : State) (i : Instr)

@[simp] theorem State.atFault_cap : (s.atFault i).cap = s.cap := by cases i <;> rfl
@[simp] theorem State.atFault_sinkOut : (s.atFault i).sinkOut = s.sinkOut := by cases i <;> rfl
@[simp] theorem State.atFault_inputs : (s.atFault i).inputs = s.inputs := by cases i <;> rfl
@[simp] theorem State.atFault_length : (s.atFault i).q.length = s.q.length := by
  cases i
  case ovl => exact s.forgetQueue_length
  all_goals rfl

end

/-! ### Batches and overlays that raise (R73, R81) -/

/-- The lowest ill-formed word of a batch is the one it is refused for: the converse of `decodeSamples_error`. -/
theorem decodeSamples_of_lowest {ws : List SampleWord} {j : Nat} {w : SampleWord} (hj : ws[j]? = some w)
    (hw : decodeSample w = none) (hlow : ∀ j' < j, ∀ w', ws[j']? = some w' → decodeSample w' ≠ none) (k : Nat) :
    decodeSamples k ws = .error (k + j, w) := by
  cases h : decodeSamples k ws with
  | ok xs =>
    have hmap := congrArg (·[j]?) (decodeSamples_ok_iff.mp h)
    simp [hj, hw] at hmap
  | error e =>
    obtain ⟨k', w'⟩ := e
    obtain ⟨hw', j', rfl, hj', hlow'⟩ := decodeSamples_error h
    obtain hlt | rfl | hlt := Nat.lt_trichotomy j' j
    · exact absurd hw' (hlow j' hlt w' hj')
    · rw [Option.some.inj (hj'.symm.trans hj)]
    · exact absurd hw (hlow' j hlt w hj)

/-- An overlay faults at the lowest lane that shows a color and has no target (R81, R91). -/
theorem overlay_error_iff {start : Int} {bgEn : Bool} {pal : PalIdx} {prio : Bool} {oam : OamIdx} {ofs : Int}
    {j l : Nat} {k : Int} {colors : List ColorIdx} {q : List Sample} :
    overlay start bgEn pal prio oam ofs j colors q = .error (l, k) ↔
      k = l - ofs ∧ shownColor start j colors l ≠ 0 ∧ ¬(0 ≤ (l : Int) - ofs ∧ (l : Int) - ofs < q.length)
        ∧ ∀ l' < l, shownColor start j colors l' ≠ 0 → 0 ≤ (l' : Int) - ofs ∧ (l' : Int) - ofs < q.length := by
  induction colors generalizing j q with
  | nil => simp [overlay, shownColor]
  | cons c rest ih =>
    by_cases hskip : (j : Int) < start ∨ c = 0
    · simp only [overlay_skip hskip, ih, shownColor_skip hskip]
    · have hshown : shownColor start j (c :: rest) j ≠ 0 := by
        rw [shownColor_first hskip]
        exact (not_or.mp hskip).2
      have hbefore {l' : Nat} (hl' : shownColor start j (c :: rest) l' ≠ 0) : j ≤ l' := by
        by_contra hlt
        exact hl' (shownColor_before (by omega))
      cases ht : sampleAt q (j - ofs) with
      | none =>
        have hnone := sampleAt_none_iff.mp ht
        rw [overlay_fault hskip ht, Except.error.injEq, Prod.mk.injEq]
        constructor
        · rintro ⟨rfl, rfl⟩
          exact ⟨rfl, hshown, hnone, fun l' hlt hl' => absurd (hbefore hl') (by omega)⟩
        · rintro ⟨rfl, hl, -, hlow⟩
          obtain rfl : j = l := by
            by_contra hne
            exact hnone (hlow j (by have := hbefore hl; omega) hshown)
          exact ⟨rfl, rfl⟩
      | some old =>
        have htarget : 0 ≤ (j : Int) - ofs ∧ (j : Int) - ofs < q.length := by
          by_contra hno
          simp [sampleAt_none_iff.mpr hno] at ht
        have hrest {l' : Nat} (hne : l' ≠ j) :
            shownColor start (j + 1) rest l' = shownColor start j (c :: rest) l' :=
          (shownColor_rest (by omega)).symm
        have hhere : shownColor start (j + 1) rest j = 0 := shownColor_before (by omega)
        rw [overlay_paint hskip ht, ih, List.length_set]
        refine and_congr_right fun _ => ?_
        by_cases hl : l = j
        · subst hl
          exact ⟨fun ⟨hl, _⟩ => absurd hhere hl, fun ⟨_, hno, _⟩ => absurd htarget hno⟩
        · rw [hrest hl]
          refine and_congr_right fun _ => and_congr_right fun _ => forall₂_congr fun l' _ => ?_
          by_cases hl' : l' = j
          · subst hl'
            exact ⟨fun _ _ => htarget, fun _ h => absurd hhere h⟩
          · rw [hrest hl']

section
variable {s : State} {colors : List ColorIdx} {pal : PalIdx} {prio : Bool} {oam : OamIdx} {ofs k : Int} {j : Nat}
  {q : List Sample}

theorem shownColor_ne_zero_iff :
    shownColor (firstLane s.cfg.ovlStart ofs) 0 colors j ≠ 0 ↔ Shows s colors ofs j := by
  rw [shownColor_zero, Shows]
  by_cases h : firstLane s.cfg.ovlStart ofs ≤ j <;> simp [h]

/-- A lane that shows is a lane of the run. -/
theorem lt_length_of_shows (h : Shows s colors ofs j) : j < colors.length := by
  by_contra hlen
  exact h.2 (List.getD_eq_default _ _ (by omega))

/-- `overlay_error_iff` for the whole run that OVL makes, in the terms of the statements. -/
theorem overlay_error_iff_shows :
    overlay (firstLane s.cfg.ovlStart ofs) s.inputs.bgEn pal prio oam ofs 0 colors s.q = .error (j, k) ↔
      k = j - ofs ∧ Shows s colors ofs j ∧ ¬Targets s ofs j ∧ ∀ j' < j, Shows s colors ofs j' → Targets s ofs j' := by
  simp only [overlay_error_iff, shownColor_ne_zero_iff, Targets]

/-- Where an overlay raises nothing, every lane that shows has a target, by induction on the lane. -/
theorem targets_of_overlay_ok
    (h : overlay (firstLane s.cfg.ovlStart ofs) s.inputs.bgEn pal prio oam ofs 0 colors s.q = .ok q)
    (hj : Shows s colors ofs j) : Targets s ofs j := by
  induction j using Nat.strong_induction_on with
  | _ j ih =>
    by_contra hno
    have herror := overlay_error_iff_shows (pal := pal) (prio := prio) (oam := oam).mpr
      ⟨rfl, hj, hno, fun j' hlt hj' => ih j' hlt hj'⟩
    simp [h] at herror

end

/-! ### What raises each fault (R90 to R93) -/

/-- The command raises the fault from `s`, with the lane and the information it records: one case per rule and
command. -/
inductive Raises (s : State) : Instr → FaultCode → Nat → Data → Prop where
  | setSample {idx : Nat} {smp : SampleWord} (hsmp : decodeSample smp = none) :
    Raises s (.set idx smp) .illegalSample 0 (smp.setWidth 32)
  | enqSample {smp : SampleWord} (hsmp : decodeSample smp = none) :
    Raises s (.enq smp) .illegalSample 0 (smp.setWidth 32)
  | enqbSample {n : Fin 4} {smp0 smp1 smp2 : SampleWord} {k : Nat} {smp : SampleWord}
    (hsmp : decodeSamples 0 (batchWords n smp0 smp1 smp2) = .error (k, smp)) :
    Raises s (.enqb n smp0 smp1 smp2) .illegalSample k (smp.setWidth 32)
  | getIndex {idx : Nat} (hidx : s.q.length ≤ idx) : Raises s (.get idx) .outOfRange 0 (twos32 idx)
  | setIndex {idx : Nat} {smp : SampleWord} {x : Sample} (hx : decodeSample smp = some x) (hidx : s.q.length ≤ idx) :
    Raises s (.set idx smp) .outOfRange 0 (twos32 idx)
  | ovlLane {colors : List ColorIdx} {pal : PalIdx} {prio : Bool} {oam : OamIdx} {ofs : Int} {j : Nat} {k : Int}
    (hj : overlay (firstLane s.cfg.ovlStart ofs) s.inputs.bgEn pal prio oam ofs 0 colors s.q = .error (j, k)) :
    Raises s (.ovl colors pal prio oam ofs) .outOfRange j (twos32 k)
  | popEmpty (hq : s.q = []) : Raises s .pop .emptyQueue 0 0
  | dropEmpty (hq : s.q = []) : Raises s .drop .emptyQueue 0 0
  | deqEmpty (hq : s.q = []) : Raises s .deq .emptyQueue 0 0
  | rowFull {colors : List ColorIdx} {pal : PalIdx} {prio : Bool} (hg : grow colors.length s = none) :
    Raises s (.row colors pal prio) .capacity 0 (BitVec.ofNat 32 (s.q.length + colors.length))
  | enqFull {smp : SampleWord} {x : Sample} (hx : decodeSample smp = some x) (hg : grow 1 s = none) :
    Raises s (.enq smp) .capacity 0 (BitVec.ofNat 32 (s.q.length + 1))
  | enqbFull {n : Fin 4} {smp0 smp1 smp2 : SampleWord} {xs : List Sample}
    (hxs : decodeSamples 0 (batchWords n smp0 smp1 smp2) = .ok xs) (hg : grow xs.length s = none) :
    Raises s (.enqb n smp0 smp1 smp2) .capacity 0 (BitVec.ofNat 32 (s.q.length + xs.length))

section
variable {s t : State} {i : Instr} {f : FaultCode} {lane : Nat} {info : Data}

theorem appendBack_full {op : Nat} {xs : List Sample} (h : grow xs.length s = none) :
    appendBack op xs s = .next (s.faulted op .capacity 0 (BitVec.ofNat 32 (s.q.length + xs.length))) := by
  simp only [appendBack, h, raise_eq]

/-- The fault entry of R95, command by command. -/
theorem Raises.exec (hs : InService s) (h : Raises s i f lane info) :
    exec i s = .next ((s.atFault i).faulted i.opcode f lane info) := by
  cases h
  all_goals refine (unlessHalted_running hs _).trans ?_
  case setSample hsmp => rw [hsmp]; rfl
  case enqSample hsmp => rw [hsmp]; rfl
  case enqbSample hsmp => rw [hsmp]; rfl
  case getIndex hidx => rw [sampleAt_ofNat, List.getElem?_eq_none hidx]; rfl
  case setIndex hx hidx => rw [hx, sampleAt_ofNat, List.getElem?_eq_none hidx]; rfl
  case ovlLane hj => rw [hj]; rfl
  case popEmpty hq => exact removeFront_nil hq _
  case dropEmpty hq => exact removeFront_nil hq _
  case deqEmpty hq => exact removeFront_nil hq _
  case rowFull colors pal prio hg =>
    have hlen := rowSamples_length colors pal prio
    exact hlen ▸ appendBack_full (hlen.symm ▸ hg)
  case enqFull x hx hg => rw [hx]; exact appendBack_full (xs := [x]) hg
  case enqbFull hxs hg => rw [hxs]; exact appendBack_full hg

theorem opcode_lt (i : Instr) : i.opcode < 16 := by
  cases i <;> simp [Instr.opcode]

/-- A fault that keeps the queue is just the entry of R95. -/
theorem Raises.exec_faultEntry (hs : InService s) (h : Raises s i f lane info) (hlane : lane < 8)
    (hkeep : s.atFault i = s) : Machine.exec i s = .next (faultEntry s i.opcode f.code lane info) := by
  rw [h.exec hs, hkeep, faulted_eq_faultEntry (opcode_lt i) hlane]

/-! ### A command completes or raises (R87) -/

theorem grow_cases (n : Nat) (s : State) : (∃ c, grow n s = some (s.withCap c)) ∨ grow n s = none := by
  cases hg : grow n s with
  | none => exact .inr rfl
  | some g =>
    obtain ⟨c, rfl, -⟩ := grow_withCap hg
    exact .inl ⟨c, rfl⟩

/-- The alternatives of R87 in service: `Completes` and `Raises` leave no command and state out. -/
theorem completes_or_raises (i : Instr) (s : State) :
    (∃ t, Completes s i t) ∨ ∃ f lane info, Raises s i f lane info := by
  cases i with
  | len => exact .inl ⟨_, .len⟩
  | cnt => exact .inl ⟨_, .cnt⟩
  | clr => exact .inl ⟨_, .clr⟩
  | rclr => exact .inl ⟨_, .rclr⟩
  | pop =>
    cases hq : s.q with
    | nil => exact .inr ⟨_, _, _, .popEmpty hq⟩
    | cons x rest => exact .inl ⟨_, .pop hq⟩
  | drop =>
    cases hq : s.q with
    | nil => exact .inr ⟨_, _, _, .dropEmpty hq⟩
    | cons x rest => exact .inl ⟨_, .drop hq⟩
  | deq =>
    cases hq : s.q with
    | nil => exact .inr ⟨_, _, _, .deqEmpty hq⟩
    | cons x rest => exact .inl ⟨_, .deq hq⟩
  | get idx =>
    obtain hidx | hidx := Nat.lt_or_ge idx s.q.length
    · exact .inl ⟨_, .get (List.getElem?_eq_getElem hidx)⟩
    · exact .inr ⟨_, _, _, .getIndex hidx⟩
  | set idx smp =>
    cases hx : decodeSample smp with
    | none => exact .inr ⟨_, _, _, .setSample hx⟩
    | some x =>
      obtain hidx | hidx := Nat.lt_or_ge idx s.q.length
      · exact .inl ⟨_, .set hx hidx⟩
      · exact .inr ⟨_, _, _, .setIndex hx hidx⟩
  | ovl colors pal prio oam ofs =>
    cases ho : overlay (firstLane s.cfg.ovlStart ofs) s.inputs.bgEn pal prio oam ofs 0 colors s.q with
    | ok q => exact .inl ⟨_, .ovl ho⟩
    | error e => exact .inr ⟨_, _, _, .ovlLane ho⟩
  | row colors pal prio =>
    obtain ⟨c, hg⟩ | hg := grow_cases colors.length s
    · exact .inl ⟨_, .row ((rowSamples_length colors pal prio).symm ▸ hg)⟩
    · exact .inr ⟨_, _, _, .rowFull hg⟩
  | enq smp =>
    cases hx : decodeSample smp with
    | none => exact .inr ⟨_, _, _, .enqSample hx⟩
    | some x =>
      obtain ⟨c, hg⟩ | hg := grow_cases 1 s
      · exact .inl ⟨_, .enq hx hg⟩
      · exact .inr ⟨_, _, _, .enqFull hx hg⟩
  | enqb n smp0 smp1 smp2 =>
    cases hxs : decodeSamples 0 (batchWords n smp0 smp1 smp2) with
    | error e => exact .inr ⟨_, _, _, .enqbSample hxs⟩
    | ok xs =>
      obtain ⟨c, hg⟩ | hg := grow_cases xs.length s
      · exact .inl ⟨_, .enqb hxs hg⟩
      · exact .inr ⟨_, _, _, .enqbFull hxs hg⟩

theorem Completes.inService (hs : InService s) (h : Completes s i t) : InService t := by
  rw [InService, State.halted, h.faultRegisters.1]
  exact hs

/-- A command that halts the block raised a fault. -/
theorem raises_of_halted (hs : InService s) (h : exec i s = .next t) (ht : t.halted = true) :
    ∃ f lane info, Raises s i f lane info ∧ t = (s.atFault i).faulted i.opcode f lane info := by
  obtain ⟨u, hc⟩ | ⟨f, lane, info, hr⟩ := completes_or_raises i s
  · cases h.symm.trans (Completes.exec hs hc)
    simp [hc.inService hs] at ht
  · cases h.symm.trans (hr.exec hs)
    exact ⟨f, lane, info, hr, rfl⟩

/-- Every command answers a next state from every state. -/
theorem exec_next (i : Instr) (s : State) : ∃ t, exec i s = .next t := by
  cases hs : s.halted with
  | true => exact ⟨_, exec_halted hs i⟩
  | false =>
    obtain ⟨t, hc⟩ | ⟨f, lane, info, hr⟩ := completes_or_raises i s
    · exact ⟨t, Completes.exec hs hc⟩
    · exact ⟨_, hr.exec hs⟩

/-- A word that decode refuses raises ILLEGAL_CMD in service (R89). -/
theorem present_illegal (hs : InService s) {w : Cmd} {e : DecodeError} (hw : decode w = .error e) :
    present w s = .next (s.faulted (slice w.toNat 3 0) .illegalCmd 0 (w.setWidth 32)) :=
  (present_of_error hw s).trans (unlessHalted_running hs _)

theorem present_next (w : Cmd) (s : State) : ∃ t, present w s = .next t := by
  cases hw : decode w with
  | ok i => rw [present_of_decode hw]; exact exec_next i s
  | error e =>
    cases hs : s.halted with
    | true => exact ⟨_, present_halted hs w⟩
    | false => exact ⟨_, present_illegal hs hw⟩

/-! ### What a fault records (R22, R95) -/

/-- FINDEX and the lane by the fault's code. -/
theorem Raises.information (h : Raises s i f lane info) :
    (f.code = 2 ∧ ∃ smp : SampleWord, (sampleWords i)[lane]? = some smp ∧ decodeSample smp = none
        ∧ info = smp.setWidth 32)
    ∨ (f.code = 3 ∧ ∃ k : Int, accesses i lane = some k ∧ ¬(0 ≤ k ∧ k < s.q.length) ∧ info = BitVec.ofInt 32 k)
    ∨ (f.code = 4 ∧ s.q = [] ∧ info = 0 ∧ lane = 0)
    ∨ (f.code = 5 ∧ lane = 0 ∧ info = BitVec.ofNat 32 (s.q.length + (appended i).length)) := by
  cases h with
  | setSample hsmp => exact .inl ⟨rfl, _, rfl, hsmp, rfl⟩
  | enqSample hsmp => exact .inl ⟨rfl, _, rfl, hsmp, rfl⟩
  | enqbSample hsmp =>
    obtain ⟨hnone, j, rfl, hj, -⟩ := decodeSamples_error hsmp
    exact .inl ⟨rfl, _, (Nat.zero_add j).symm ▸ hj, hnone, rfl⟩
  | getIndex hidx => exact .inr (.inl ⟨rfl, _, rfl, by omega, rfl⟩)
  | setIndex hx hidx => exact .inr (.inl ⟨rfl, _, rfl, by omega, rfl⟩)
  | ovlLane hj =>
    obtain ⟨rfl, -, htarget, -⟩ := overlay_error_iff_shows.mp hj
    exact .inr (.inl ⟨rfl, _, rfl, htarget, rfl⟩)
  | popEmpty hq => exact .inr (.inr (.inl ⟨rfl, hq, rfl, rfl⟩))
  | dropEmpty hq => exact .inr (.inr (.inl ⟨rfl, hq, rfl, rfl⟩))
  | deqEmpty hq => exact .inr (.inr (.inl ⟨rfl, hq, rfl, rfl⟩))
  | rowFull hg => exact .inr (.inr (.inr ⟨rfl, rfl, by rw [appended, rowSamples_length]⟩))
  | enqFull hx hg => exact .inr (.inr (.inr ⟨rfl, rfl, by rw [appended, hx]; rfl⟩))
  | enqbFull hxs hg => exact .inr (.inr (.inr ⟨rfl, rfl, by rw [appended, filterMap_of_decodeSamples hxs]⟩))

/-- The lane fits FLANE: a batch has three slots, and an overlay that a word carries eight lanes (R21, R57, R58). -/
theorem Raises.lane_lt (h : Raises s i f lane info) (hwf : i.wellFormed = true) : lane < 8 := by
  cases h with
  | @enqbSample n smp0 smp1 smp2 k smp hsmp =>
    obtain ⟨-, j, rfl, hj, -⟩ := decodeSamples_error hsmp
    have hlt : j < (batchWords n smp0 smp1 smp2).length := (List.getElem?_eq_some_iff.mp hj).1
    rw [batchWords_length] at hlt
    omega
  | @ovlLane colors _ _ _ _ j _ hj =>
    obtain ⟨-, hshows, -⟩ := overlay_error_iff_shows.mp hj
    have hlen : colors.length = 8 := by
      rw [Instr.wellFormed, Bool.and_eq_true] at hwf
      exact beq_iff_eq.mp hwf.1
    exact hlen ▸ lt_length_of_shows hshows
  | _ => decide

/-- Only an overlay's OUT_OF_RANGE leaves another queue (R95). -/
theorem Raises.atFault_q (h : Raises s i f lane info) (hne : i.opcode ≠ 3 ∨ f.code ≠ 3) : (s.atFault i).q = s.q := by
  cases h with
  | ovlLane _ => simp [Instr.opcode, FaultCode.code] at hne
  | _ => rfl

/-- The low four bits of a word are the opcode of the command it carries (R50). -/
theorem opcode_of_decode {w : Cmd} (h : decode w = .ok i) : i.opcode = slice w.toNat 3 0 := by
  cases decode_ok_iff.mp h with
  | enqb hsel _ => exact hsel.1.symm
  | _ hsel => exact hsel.1.symm

end

/-! ### What the host owes (R105 to R108) -/

theorem fits_eq (n : Nat) (s : State) : fits n s = (grow n s).isSome := by
  unfold fits grow
  split
  · simp [*]
  · split <;> simp [*]

theorem validIndex_ofNat (q : List Sample) (idx : Nat) : validIndex q idx = decide (idx < q.length) := by
  simp [validIndex]

theorem targetsExist_iff {s : State} {colors : List ColorIdx} {ofs : Int} :
    targetsExist (firstLane s.cfg.ovlStart ofs) colors ofs s.q = true ↔
      ∀ j < colors.length, Shows s colors ofs j → Targets s ofs j := by
  simp [targetsExist, laneShows, validIndex, Shows, Targets, imp_iff_not_or]

section
variable {s t : State} {i : Instr} {f : FaultCode} {lane : Nat} {info : Data}

theorem Completes.duty (h : Completes s i t) : duty i s = true := by
  have hwf {smp : SampleWord} {x : Sample} (hx : decodeSample smp = some x) : sampleWellFormed smp = true := by
    rw [← decodeSample_some_iff, hx, Option.isSome_some]
  cases h with
  | get hx => simpa [Safety.duty, validIndex_ofNat] using (List.getElem?_eq_some_iff.mp hx).1
  | set hx hidx => simp [Safety.duty, validIndex_ofNat, hwf hx, hidx]
  | ovl hq => exact targetsExist_iff.mpr fun j _ hj => targets_of_overlay_ok hq hj
  | row hg => rw [rowSamples_length] at hg; simp [Safety.duty, fits_eq, hg]
  | enq hx hg => simp [Safety.duty, fits_eq, hwf hx, hg]
  | @enqb n smp0 smp1 smp2 xs c hxs hg =>
    have hall : (batchWords n smp0 smp1 smp2).all sampleWellFormed = true := by
      rw [List.all_eq_true]
      intro smp hsmp
      have hmem : decodeSample smp ∈ xs.map some := decodeSamples_ok_iff.mp hxs ▸ List.mem_map_of_mem hsmp
      obtain ⟨x, -, hx⟩ := List.mem_map.mp hmem
      exact hwf hx.symm
    rw [decodeSamples_length hxs, batchWords_length] at hg
    simp [Safety.duty, fits_eq, hall, hg]
  | pop hq => simp [Safety.duty, hq]
  | drop hq => simp [Safety.duty, hq]
  | deq hq => simp [Safety.duty, hq]
  | _ => rfl

theorem Raises.not_duty (h : Raises s i f lane info) : duty i s = false := by
  cases h with
  | setSample hsmp => simp [duty, decodeSample_none_iff.mp hsmp]
  | enqSample hsmp => simp [duty, decodeSample_none_iff.mp hsmp]
  | @enqbSample n smp0 smp1 smp2 k smp hsmp =>
    obtain ⟨hnone, j, -, hj, -⟩ := decodeSamples_error hsmp
    have hall : (batchWords n smp0 smp1 smp2).all sampleWellFormed = false :=
      List.all_eq_false.mpr ⟨smp, List.mem_of_getElem? hj, by simp [decodeSample_none_iff.mp hnone]⟩
    simp [duty, hall]
  | getIndex hidx => simpa [duty, validIndex_ofNat] using hidx
  | setIndex hx hidx => simp [duty, validIndex_ofNat, hidx]
  | ovlLane hj =>
    obtain ⟨-, hshows, htarget, -⟩ := overlay_error_iff_shows.mp hj
    refine Bool.eq_false_of_not_eq_true fun h => ?_
    exact htarget (targetsExist_iff.mp h _ (lt_length_of_shows hshows) hshows)
  | popEmpty hq => simp [duty, hq]
  | dropEmpty hq => simp [duty, hq]
  | deqEmpty hq => simp [duty, hq]
  | rowFull hg => simp [duty, fits_eq, hg]
  | enqFull hx hg => simp [duty, fits_eq, hg]
  | enqbFull hxs hg =>
    rw [decodeSamples_length hxs, batchWords_length] at hg
    simp [duty, fits_eq, hg]

end

/-- Under the invariant `Grow` raises exactly when the total is beyond MAX_CAP, which is a power of two (R68, R93). -/
theorem grow_none_iff {n : Nat} {s : State} (hs : Inv s) : grow n s = none ↔ s.cfg.maxCap < s.q.length + n := by
  constructor
  · intro h
    by_contra hmax
    obtain ⟨c, -, hg⟩ := grow_of_room hs.params (not_lt.mp hmax)
    simp [h] at hg
  · intro hmax
    have hcap := hs.capLeMax
    have hpow := le_nextPow2 (s.q.length + n)
    rw [grow_of_full (by omega), if_neg (by omega)]

end Sys2Proof.Machine
end

section
/-! PROOFS. The statements about exceptions (`60_exceptions.md`). -/

namespace Sys2Proof.Proofs.Exceptions

open Sys2Proof.Bits Sys2Proof.Machine Sys2Proof.Safety Sys2Proof.Claims

/-- Settles O16: each effect a presented word can have is one of the outcomes. -/
theorem everyPresentedCommandHasOneOfFourOutcomes : Obligations.EveryPresentedCommandHasOneOfFourOutcomes := by
  refine ⟨fun w s => ?_, fun s w₁ w₂ rest hin => step_event hin⟩
  obtain ⟨t, h⟩ := present_next w s
  cases present_effect h with
  | refused hs ht => exact ⟨t, ⟨7, 0⟩, h, ht ▸ rfl, .inr (.inr ⟨hs, ht⟩)⟩
  | faulted hs op f lane info u hu ht =>
    subst ht
    obtain ⟨hlo, hhi⟩ := FStat.code_bounds f
    refine ⟨_, ⟨BitVec.ofNat 4 f.code, 0⟩, h, rfl, .inr (.inl ?_)⟩
    rw [rstat_toNat]
    exact ⟨hs, recordFault_halted u op f lane info, hlo, hhi, (FStat.fcode_pack op lane f).symm, rfl⟩
  | done hs q g hg sent hsent d ht =>
    obtain ⟨c, rfl, -⟩ := withCap_of_grown hg
    subst ht
    exact ⟨_, ⟨rstatOk, d⟩, h, rfl, .inl ⟨hs, hs, rfl⟩⟩

/-- Settles O18: an illegal word records what R89 says, a command what its fault's rule says. -/
theorem faultEntryRecordsTheFaultAndKeepsTheRest : Obligations.FaultEntryRecordsTheFaultAndKeepsTheRest := by
  intro w s t hs h ht
  have hop : slice w.toNat 3 0 < 16 := slice_lt w.toNat 3 0
  cases hw : decode w with
  | error e =>
    cases h.symm.trans (present_illegal hs hw)
    simp [State.faultO, Nat.mod_eq_of_lt hop, FaultCode.code]
  | ok i =>
    obtain ⟨f, lane, info, hr, rfl⟩ := raises_of_halted hs (present_of_decode hw s ▸ h) ht
    have hlane := hr.lane_lt (decode_ok_iff.mp hw).wellFormed
    simp only [State.respond_fstat, State.recordFault_fstat, FStat.fop_pack, FStat.fcode_pack, FStat.flane_pack,
      Nat.mod_eq_of_lt (opcode_lt i), Nat.mod_eq_of_lt hlane]
    exact ⟨FStat.fault_pack _ _ _, opcode_of_decode hw, FStat.reserved_pack _ _ _, rfl, by simp, FStat.fault_pack _ _ _,
      s.atFault_cap i, s.atFault_length i, s.atFault_sinkOut i, s.atFault_inputs i,
      hr.atFault_q, .inr ⟨i, rfl, hr.information⟩⟩

/-- Settles O20. -/
theorem onlyResetReturnsToService : Obligations.OnlyResetReturnsToService := by
  intro s t hs h
  cases step_effect h with
  | idle hin ht => subst ht; simp [nextEvent, hin, hs]
  | command w rest hin ht => rw [ht.of_halted hs]; simp [nextEvent, hin, hs]
  | reset rest hin ht => subst ht; simp [nextEvent, hin]
  | enable b rest hin ht => subst ht; simp [nextEvent, hin, hs]
  | palette bank pal color c rest hin ht => subst ht; simp [nextEvent, hin, hs]
  | bankRead name rest hin ht =>
    obtain ⟨v, f, rfl⟩ := bankReadStep_next ht
    exact ⟨fun _ => ⟨hs, rfl, rfl, rfl, rfl, rfl, rfl⟩, fun he => by simp [nextEvent, hin] at he⟩
  | bankWrite name v rest hin ht => obtain rfl | rfl := bankWriteStep_next ht <;> simp [nextEvent, hin, hs]

/-- Settles O22: the lowest ill-formed slot is the one a batch is refused for. -/
theorem anIllFormedSampleRaisesIllegalSample : Obligations.AnIllFormedSampleRaisesIllegalSample := by
  refine ⟨fun idx smp s hs hsmp => (Raises.setSample hsmp).exec_faultEntry hs (by decide) rfl,
    fun smp s hs hsmp => (Raises.enqSample hsmp).exec_faultEntry hs (by decide) rfl,
    fun n smp0 smp1 smp2 s k smp hs hk hslot hsmp hlow => ?_⟩
  have hword {k' : Nat} (hk' : k' < n.val) : (batchWords n smp0 smp1 smp2)[k']? = [smp0, smp1, smp2][k']? :=
    List.getElem?_take_of_lt hk'
  have herror := decodeSamples_of_lowest ((hword hk).trans hslot) hsmp
    (fun k' hlt smp' hs' => hlow k' hlt smp' (hword (hlt.trans hk) ▸ hs')) 0
  rw [Nat.zero_add] at herror
  exact (Raises.enqbSample herror).exec_faultEntry hs (by omega) rfl

/-- Settles O23: an overlay records its fault on a queue already forgotten, of the same length. -/
theorem anIndexOutsideTheQueueRaisesOutOfRange : Obligations.AnIndexOutsideTheQueueRaisesOutOfRange := by
  have hinfo (idx : Nat) : twos32 idx = BitVec.ofNat 32 idx := BitVec.ofInt_natCast 32 idx
  refine ⟨fun idx s hs hidx => ?_, fun idx smp x s hs hx hidx => ?_,
    fun colors pal prio oam ofs s j hs hj hlen hshows htarget hlow => ?_⟩
  · exact hinfo idx ▸ (Raises.getIndex hidx).exec_faultEntry hs (by decide) rfl
  · exact hinfo idx ▸ (Raises.setIndex hx hidx).exec_faultEntry hs (by decide) rfl
  · have herror := overlay_error_iff_shows (pal := pal) (prio := prio) (oam := oam).mpr ⟨rfl, hshows, htarget, hlow⟩
    refine ⟨s.forgetQueue.q, s.forgetQueue.free, s.forgetQueue_length, ((Raises.ovlLane herror).exec hs).trans ?_⟩
    rw [faulted_eq_faultEntry (opcode_lt _) (by omega), faultEntry, State.atFault, State.forgetQueue_length]
    rfl

/-- Settles O25. -/
theorem anInsertBeyondMaxCapRaisesCapacity : Obligations.AnInsertBeyondMaxCapRaisesCapacity := by
  refine ⟨fun n s hInv => grow_none_iff hInv, fun colors pal prio s hs hInv hlen hmax => ?_,
    fun smp x s hs hInv hx hmax => ?_, fun n smp0 smp1 smp2 xs s hs hInv hxs hmax => ?_⟩
  · rw [← hlen] at hmax ⊢
    exact (Raises.rowFull ((grow_none_iff hInv).mpr hmax)).exec_faultEntry hs (by decide) rfl
  · exact (Raises.enqFull hx ((grow_none_iff hInv).mpr hmax)).exec_faultEntry hs (by decide) rfl
  · have hdec : decodeSamples 0 (batchWords n smp0 smp1 smp2) = .ok xs := decodeSamples_ok_iff.mpr hxs
    have hlen : xs.length = n.val := (decodeSamples_length hdec).trans (batchWords_length n smp0 smp1 smp2)
    rw [← hlen] at hmax ⊢
    exact (Raises.enqbFull hdec ((grow_none_iff hInv).mpr hmax)).exec_faultEntry hs (by decide) rfl

/-- Settles O26: a command completes where its duty is met, and raises where it is not. -/
theorem dutiesAreExactlyWhatPreventsFaults : Obligations.DutiesAreExactlyWhatPreventsFaults := by
  intro i s hs
  constructor
  · intro hduty
    obtain ⟨t, hc⟩ | ⟨f, lane, info, hr⟩ := completes_or_raises i s
    · exact ⟨t, Completes.exec hs hc, hc.inService hs⟩
    · simp [hr.not_duty] at hduty
  · rintro ⟨t, h, ht⟩
    exact (completes_of_inService h ht).2.duty

/-- Settles O19. -/
theorem aHaltedBlockRefusesEveryCommand : Obligations.AHaltedBlockRefusesEveryCommand :=
  ⟨fun s w rest hs hin => (step_event hin).trans (present_halted (s := s.withInbox rest) hs w),
    fun i _ hs => exec_halted hs i⟩

/-- Settles O21. -/
theorem anIllegalWordRaisesIllegalCmd : Obligations.AnIllegalWordRaisesIllegalCmd := by
  intro w e s hs hw
  have hlow : w.setWidth 32 = BitVec.ofNat 32 (slice w.toNat 31 0) := by
    refine BitVec.eq_of_toNat_eq ?_
    simp [slice]
  rw [present_illegal hs hw, faulted_eq_faultEntry (slice_lt w.toNat 3 0) (by decide), hlow]
  rfl

/-- Settles O24. -/
theorem anEmptyQueueRaisesEmptyQueue : Obligations.AnEmptyQueueRaisesEmptyQueue := by
  intro s hs hq
  refine ⟨(Raises.deqEmpty hq).exec_faultEntry hs (by decide) rfl,
    (Raises.popEmpty hq).exec_faultEntry hs (by decide) rfl,
    (Raises.dropEmpty hq).exec_faultEntry hs (by decide) rfl, ?_⟩
  rw [faultEntry, hq]
  rfl

end Sys2Proof.Proofs.Exceptions
end

section
/-! PROOFS. The statement about reset and hazards (`70_reset_and_hazards.md`). -/

namespace Sys2Proof.Proofs.Clearing

open Sys2Proof.Machine

/-- Settles O34: neither command can raise, so each completes as its case of `Completes` says. -/
theorem clearEmptiesTheQueueAndRetainsTheCapacity : Obligations.ClearEmptiesTheQueueAndRetainsTheCapacity :=
  fun _ hs => ⟨Completes.exec hs .rclr, Completes.exec hs .clr⟩

end Sys2Proof.Proofs.Clearing
end
